-- ==== Sys2Proof/Word.lean ====
section
/-! DEFINITION. The value types: the opcode byte, the 4-bit codes of the response port, and the numeric type NUM of
spec/00_scope.md R8, R9. Arithmetic on NUM is in Machine/Num.lean. -/

namespace Sys2Proof

/-- The opcode byte `cmd[7:0]` (30_encoding.md R49, R51). -/
abbrev Byte := BitVec 8

/-- A 4-bit field: `unit`, `fn`, `status`, `cause` (30_encoding.md R51, R57, R58). -/
abbrev Nibble := BitVec 4

/-- A value of the numeric type `NUM` (00_scope.md R9): a magnitude, frequency, gain, threshold, running sum or
timestamp. A finite value is the rational number it stands for, in both admitted instantiations of `NUM` (binary64 and
the exact rationals; log 1); the two zeros of binary64 are one value (log 2). `inf` and `nan` are binary64's
non-finite values: no operand may be one (R9), and they occur as results only (log 4). -/
inductive NUM where
  | fin (q : Rat)
  | inf (neg : Bool)
  | nan
deriving DecidableEq, Repr

namespace NUM

/-- The constants R9 asks for. -/
abbrev zero : NUM := .fin 0
abbrev quarter : NUM := .fin (1 / 4)
abbrev half : NUM := .fin (1 / 2)
abbrev threeQuarters : NUM := .fin (3 / 4)
abbrev two : NUM := .fin 2

/-- The upper end of the linear gain scale, "(linear, 0–1)" (10_state.md R21, R23 (e)). -/
abbrev one : NUM := .fin 1

/-- "finite (no infinity, no not-a-number)" (00_scope.md R9). -/
def isFinite : NUM → Bool
  | .fin _ => true
  | .inf _ => false
  | .nan => false

end NUM

end Sys2Proof
end

