-- ==== Sys2Proof/Config.lean ====
section
/-! DEFINITION. What one build of the CORE fixes: the implementation parameters of spec/00_scope.md R8, and the one free
value of the model. `CNT` is `Nat` and `BINT` is `Int` (R8, D2, D3); `TIME_UNIT` is milliseconds and appears in no
formula (R8, D4); `PAYLOAD_LAYOUT` is left open: payloads are typed values (R8, D15; log 10). -/

namespace Sys2Proof

/-- The admitted instantiations of `NUM` (00_scope.md R9; 92_eei_decisions.md D1). -/
inductive NumFormat where
  | binary64   -- IEEE 754 binary64, round-to-nearest-even: the default
  | exact      -- the rationals: no operation rounds
deriving DecidableEq, Repr

/-- The implementation parameters of 00_scope.md R8. -/
structure Config where
  /-- `NUM`. -/
  numFormat : NumFormat
  /-- `C_MAX`: largest channel count accepted; `none` is "no limit". -/
  cMax : Option Nat
  /-- `N_MAX`: largest symbol count of one ENCODE; `none` is "no limit". -/
  nMax : Option Nat
  /-- `GAIN_IDLE`: gain of a channel before its first setpoint, outside the CORE. -/
  gainIdle : NUM
deriving DecidableEq, Repr

/-- The build the machine runs: every parameter at the value R8 takes (log 1, 11). -/
def Config.build : Config where
  numFormat := .binary64
  cMax := none
  nMax := none
  gainIdle := .zero

/-- FREE VALUE (log 9): what `bin(freq; sample_rate, transform_block_size)` is, within its limits, where binary64 arithmetic
leaves the formula of 40_binmap.md R67 without a finite quotient (the bin size rounds to 0, or the sum or the
quotient overflows). A list of thresholds and jumps, one list for frequencies at or above 0 (`false`) and one for those
below (`true`): every non-decreasing count over the values of binary64 is some list, and no other function is, since R69
(a) has `bin` non-decreasing "under binary64 without exception". A function of the operands, since R67 calls `bin`
"Deterministic". -/
opaque Config.freeBinSteps : Bool → NUM → Nat → List (Rat × Nat)

end Sys2Proof
end

