-- ==== Sys2Proof/Machine/Num.lean ====
section
/-! DEFINITION. The operations of `NUM` (spec/00_scope.md R9): "addition, subtraction, multiplication, division; the
order tests >, <, >=; the equality test ==; floor to BINT; and an exact injection num(n)", with "one rounding per
operation where NUM rounds". Binary64 is described by its values: an operation is the exact rational operation followed
by one rounding to the nearest representable rational, ties to even (PRESUMED from IEEE 754, as R9's own mark says;
log 1). -/

namespace Sys2Proof

/-- `2 ^ e` as a rational. -/
def pow2 : Int → Rat
  | .ofNat n => ((2 ^ n : Nat) : Rat)
  | .negSucc n => mkRat 1 (2 ^ (n + 1))

/-- The binary exponent of a non-zero rational: the `e` with `2 ^ e ≤ |x| < 2 ^ (e + 1)`. -/
def binaryExponent (x : Rat) : Int :=
  let p := x.num.natAbs
  let q := x.den
  let e : Int := (Nat.log2 p : Int) - (Nat.log2 q : Int)
  if (if 0 ≤ e then 2 ^ e.toNat * q ≤ p else q ≤ p * 2 ^ (-e).toNat) then e else e - 1

/-- The nearest integer, ties to even. -/
def roundTiesEven (r : Rat) : Int :=
  let f := r.floor
  let d := r - f
  if d < 1 / 2 then f else if 1 / 2 < d then f + 1 else if f % 2 = 0 then f else f + 1

/-- The distance between neighbouring binary64 values around `x`: 53 significant bits, and never below `2 ^ (-1074)`. -/
def ulp64 (x : Rat) : Rat := pow2 (max (binaryExponent x - 52) (-1074))

/-- The first magnitude above binary64's finite range. -/
def overflow64 : Rat := pow2 1024

/-- The greatest finite value of binary64, `(2 ^ 53 - 1) * 2 ^ 971`. -/
def greatest64 : Rat := pow2 1024 - pow2 971

/-- Round-to-nearest-even to binary64; a result of magnitude `2 ^ 1024` or more is an infinity. -/
def round64 (x : Rat) : NUM :=
  let y := (roundTiesEven (x / ulp64 x) : Rat) * ulp64 x
  if y < overflow64 ∧ -overflow64 < y then .fin y else .inf (decide (x < 0))

/-- The one rounding of an operation: binary64 rounds, "under the exact instantiation … no operation rounds" (R9). -/
def NumFormat.round : NumFormat → Rat → NUM
  | .binary64, x => round64 x
  | .exact, x => .fin x

namespace NUM

/-- `x` is a finite value of the build's `NUM`: the condition R9 puts on every input value. -/
def isValue (f : NumFormat) : NUM → Bool
  | .fin q => decide (f.round q = .fin q)
  | .inf _ => false
  | .nan => false

def neg : NUM → NUM
  | .fin q => .fin (-q)
  | .inf n => .inf (!n)
  | .nan => .nan

def add (f : NumFormat) : NUM → NUM → NUM
  | .fin a, .fin b => f.round (a + b)
  | .fin _, .inf n => .inf n
  | .inf n, .fin _ => .inf n
  | .inf n, .inf m => if n = m then .inf n else .nan
  | .nan, _ => .nan
  | _, .nan => .nan

def sub (f : NumFormat) (a b : NUM) : NUM := add f a (neg b)

/-- Infinity, of sign `n`, times a finite number. -/
def infTimes (n : Bool) (q : Rat) : NUM :=
  if q = 0 then .nan else .inf (xor n (decide (q < 0)))

def mul (f : NumFormat) : NUM → NUM → NUM
  | .fin a, .fin b => f.round (a * b)
  | .fin a, .inf n => infTimes n a
  | .inf n, .fin b => infTimes n b
  | .inf n, .inf m => .inf (xor n m)
  | .nan, _ => .nan
  | _, .nan => .nan

/-- A finite number `x` divided by 0. Under binary64 it is "not-a-number only when `x` is 0; for `x` not 0 it is an
infinity" (90_conflicts.md C3), of the sign of `x` since the one zero is unsigned (log 2). The rationals have no such
quotient: it is "no value" (40_binmap.md R67), here `nan`, and no rule uses it (log 4). -/
def divZero : NumFormat → Rat → NUM
  | .binary64, a => if a = 0 then .nan else .inf (decide (a < 0))
  | .exact, _ => .nan

/-- Division. -/
def div (f : NumFormat) : NUM → NUM → NUM
  | .fin a, .fin b => if b = 0 then divZero f a else f.round (a / b)
  | .fin _, .inf _ => .zero
  | .inf n, .fin b => .inf (xor n (decide (b < 0)))
  | .inf _, .inf _ => .nan
  | .nan, _ => .nan
  | _, .nan => .nan

/-- `a < b`; a not-a-number compares false. -/
def lt : NUM → NUM → Bool
  | .fin a, .fin b => decide (a < b)
  | .fin _, .inf n => !n
  | .inf n, .fin _ => n
  | .inf n, .inf m => n && !m
  | .nan, _ => false
  | _, .nan => false

/-- `a == b`; a not-a-number compares false. -/
def eqv : NUM → NUM → Bool
  | .fin a, .fin b => decide (a = b)
  | .inf n, .inf m => n == m
  | .fin _, .inf _ => false
  | .inf _, .fin _ => false
  | .nan, _ => false
  | _, .nan => false

/-- `a > b`. -/
def gt (a b : NUM) : Bool := lt b a

/-- `a >= b`. -/
def ge (a b : NUM) : Bool := lt b a || eqv a b

/-- `floor` to `BINT`: "the greatest integer not above" (R67); a non-finite value has none. -/
def floor? : NUM → Option Int
  | .fin q => some q.floor
  | .inf _ => none
  | .nan => none

/-- `num(n)`, the "exact injection" of R9: the natural number itself, in both instantiations. Beyond `2 ^ 53` it may be
no value of binary64, and is then rounded only in the result of the operation it enters (log 5). -/
def ofNat (n : Nat) : NUM := .fin n

end NUM

end Sys2Proof
end

