-- ==== Sys2Proof/Syntax.lean ====
section
/-! DEFINITION. The six commands of spec/30_encoding.md R52 with their typed payloads (R53 to R56), and a command as it
stands on the command port: an opcode byte and a tuple of typed values (R49, R50). -/

namespace Sys2Proof

/-- A channel: `center` frequency in Hz and `gain` (10_state.md R18). -/
structure Channel where
  center : NUM
  gain : NUM
deriving DecidableEq, Repr

/-- The decoder's configuration record `dcfg.*`, fields in payload order (10_state.md R15, R22; 30_encoding.md R54). -/
structure DecConfig where
  transformBlockSize : Nat
  sampleRate : NUM
  channels : List Channel
  decodeThreshold : NUM
  decodeBandpassQ : NUM
  smoothing : NUM
deriving DecidableEq, Repr

/-- The encoder's configuration record `ecfg.*`, fields in payload order (10_state.md R15, R22; 30_encoding.md R56). -/
structure EncConfig where
  channels : List Channel
  encodeBandpassQ : NUM
  encodeGainHigh : NUM
  encodeGainLow : NUM
  symbolDuration : NUM
  symbolPause : NUM
deriving DecidableEq, Repr

/-- A Symbol: "ordered sequence of booleans"; element `k` is the bit of channel `k + 2` (30_encoding.md R60). -/
abbrev Symbol := List Bool

/-- A SpectralFrame: magnitudes in dB, indexed by bin (20_memory.md R36). -/
abbrev Frame := List NUM

/-- The commands, one constructor per row of the opcode table. -/
inductive Instr where
  | bin (freq sampleRate : NUM) (blockSize : Nat)
  | dcfg (cfg : DecConfig) (rawEn : Bool)
  | frame (mags : Frame)
  | detach
  | ecfg (cfg : EncConfig)
  | encode (symbols : List Symbol) (startTime : NUM)
deriving DecidableEq, Repr

/-- One typed value of a payload (30_encoding.md R50). -/
inductive PayloadValue where
  | num (x : NUM)
  | nat (n : Nat)
  | bool (b : Bool)
  | nums (xs : List NUM)
  | channels (cs : List Channel)
  | symbols (ss : List Symbol)
deriving DecidableEq, Repr

/-- What the host puts on the command port: "one command = one opcode byte `cmd[7:0]` and one typed payload" (R49). -/
structure Command where
  opcode : Byte
  payload : List PayloadValue
deriving DecidableEq, Repr

/-- The payload formats (30_encoding.md R53 to R56). -/
inductive PayloadFormat where
  | Q | DC | F | K | EC | E
deriving DecidableEq, Repr

/-- The three units (00_scope.md R2). -/
inductive CoreUnit where
  | binmap | dec | enc
deriving DecidableEq, Repr

end Sys2Proof
end

