-- ==== Sys2Proof/Machine/Preconditions.lean ====
section
/-! DEFINITION. The preconditions of the commands: finite operands (spec/00_scope.md R9) and well-formed payloads
(spec/10_state.md R23; 40_binmap.md R68). A command that fails one "is outside this spec, treatment `refuse`". The
conditions the spec makes errors (60_exceptions.md R97) are not here: the commands check them. -/

namespace Sys2Proof

/-- "a power of two and at least 2" (R23 (a)). -/
def isBlockSize (b : Nat) : Bool := decide (2 ≤ b) && decide (b = 2 ^ Nat.log2 b)

/-- A count within an open limit, `none` being no limit (00_scope.md R8, `C_MAX`, `N_MAX`). -/
def withinLimit (limit : Option Nat) (n : Nat) : Bool :=
  match limit with
  | none => true
  | some m => decide (n ≤ m)

/-- `0 <= x <= 1` (R23 (e)). -/
def isGain (x : NUM) : Bool := NUM.ge x .zero && NUM.ge .one x

def Channel.isFinite (f : NumFormat) (c : Channel) : Bool := c.center.isValue f && c.gain.isValue f

/-- R23 (c) for the decoder's configuration. -/
def DecConfig.isFinite (f : NumFormat) (p : DecConfig) : Bool :=
  p.sampleRate.isValue f && p.channels.all (Channel.isFinite f) && p.decodeThreshold.isValue f &&
    p.decodeBandpassQ.isValue f && p.smoothing.isValue f

/-- R23 (a), (b), (d), (g) for the decoder's configuration. -/
def DecConfig.wellFormed (c : Config) (p : DecConfig) : Bool :=
  isBlockSize p.transformBlockSize && NUM.gt p.sampleRate .zero &&
    (NUM.ge p.smoothing .zero && NUM.lt p.smoothing .one) && withinLimit c.cMax p.channels.length

/-- R23 (c) for the encoder's configuration. -/
def EncConfig.isFinite (f : NumFormat) (p : EncConfig) : Bool :=
  p.channels.all (Channel.isFinite f) && p.encodeBandpassQ.isValue f && p.encodeGainHigh.isValue f &&
    p.encodeGainLow.isValue f && p.symbolDuration.isValue f && p.symbolPause.isValue f

/-- R23 (e), (f), (g) for the encoder's configuration. -/
def EncConfig.wellFormed (c : Config) (p : EncConfig) : Bool :=
  isGain p.encodeGainLow && isGain p.encodeGainHigh &&
    NUM.gt (NUM.add c.numFormat p.symbolDuration p.symbolPause) .zero && withinLimit c.cMax p.channels.length

/-- "`sample_rate > 0`, `transform_block_size >= 1`" (40_binmap.md R68). -/
def binOperandsOk (sampleRate : NUM) (blockSize : Nat) : Bool :=
  NUM.gt sampleRate .zero && decide (1 ≤ blockSize)

end Sys2Proof
end

