-- ==== Sys2Proof/WellFormed.lean ====
section
/-! DEFINITION. A well-formed command: every `NUM` operand finite (spec/00_scope.md R9) and the payload within the
preconditions of spec/10_state.md R23 and 40_binmap.md R68. Any other command "is outside this spec". -/

namespace Sys2Proof

/-- "Every input value of type NUM is required to be finite" (00_scope.md R9). -/
def Instr.operandsFinite (c : Config) : Instr → Bool
  | .bin freq sampleRate _ => freq.isValue c.numFormat && sampleRate.isValue c.numFormat
  | .dcfg cfg _ => cfg.isFinite c.numFormat
  | .frame mags => mags.all (NUM.isValue c.numFormat)
  | .detach => true
  | .ecfg cfg => cfg.isFinite c.numFormat
  | .encode _ startTime => startTime.isValue c.numFormat

/-- The remaining preconditions: R23 for the constructions, R68 for BIN, `N_MAX` (R8) for ENCODE. -/
def Instr.payloadOk (c : Config) : Instr → Bool
  | .bin _ sampleRate blockSize => binOperandsOk sampleRate blockSize
  | .dcfg cfg _ => cfg.wellFormed c
  | .frame _ => true
  | .detach => true
  | .ecfg cfg => cfg.wellFormed c
  | .encode symbols _ => withinLimit c.nMax symbols.length

def Instr.wellFormed (c : Config) (i : Instr) : Bool := i.operandsFinite c && i.payloadOk c

end Sys2Proof
end

