-- ==== Sys2Proof/Decode.lean ====
section
/-! DEFINITION. The opcode map (spec/30_encoding.md R51, R52), the decoder from a command on the command port to an
instruction, and the encoder back. Every opcode byte is decoded or rejected by name; "the opcode byte alone selects the
format, and the payload is typed" (R63). -/

namespace Sys2Proof

/-- `cmd[7:4]` (R51). -/
def opcodeUnit (cmd : Byte) : Nibble := cmd.extractLsb' 4 4

/-- `cmd[3:0]` (R51). -/
def opcodeFn (cmd : Byte) : Nibble := cmd.extractLsb' 0 4

/-- What the decoder answers. -/
inductive Decoded where
  | instr (i : Instr)              -- one of the six commands
  | reserved (cmd : Byte)          -- a reserved opcode (R62)
  | payloadMismatch (cmd : Byte)   -- a payload that is not of the format the opcode selects (R50; log 10)
deriving DecidableEq, Repr

/-- The opcode map of R52: the format each accepted opcode selects; `none` is reserved (R62). -/
def formatOf (cmd : Byte) : Option PayloadFormat :=
  match (opcodeUnit cmd).toNat, (opcodeFn cmd).toNat with
  | 0, 0 => some .Q
  | 1, 0 => some .DC
  | 1, 1 => some .F
  | 1, 2 => some .K
  | 2, 0 => some .EC
  | 2, 1 => some .E
  | _, _ => none

/-- A payload read as the format says: the values "in this order" of R53 to R56. -/
def readPayload : PayloadFormat → List PayloadValue → Option Instr
  | .Q, [.num freq, .num sampleRate, .nat blockSize] => some (.bin freq sampleRate blockSize)
  | .DC, [.nat blockSize, .num sampleRate, .channels channels, .num threshold, .num q, .num smoothing, .bool rawEn] =>
    some (.dcfg ⟨blockSize, sampleRate, channels, threshold, q, smoothing⟩ rawEn)
  | .F, [.nums mags] => some (.frame mags)
  | .K, [] => some .detach
  | .EC, [.channels channels, .num q, .num high, .num low, .num duration, .num pause] =>
    some (.ecfg ⟨channels, q, high, low, duration, pause⟩)
  | .E, [.symbols symbols, .num startTime] => some (.encode symbols startTime)
  | _, _ => none

/-- The decoder, total on every opcode byte and every payload. -/
def decode (c : Command) : Decoded :=
  match formatOf c.opcode with
  | none => .reserved c.opcode
  | some f =>
    match readPayload f c.payload with
    | some i => .instr i
    | none => .payloadMismatch c.opcode

/-- The opcode of a command (R52). -/
def Instr.opcode : Instr → Byte
  | .bin _ _ _ => 0x00#8
  | .dcfg _ _ => 0x10#8
  | .frame _ => 0x11#8
  | .detach => 0x12#8
  | .ecfg _ => 0x20#8
  | .encode _ _ => 0x21#8

/-- The payload values of a command, in the order of R53 to R56. -/
def Instr.payload : Instr → List PayloadValue
  | .bin freq sampleRate blockSize => [.num freq, .num sampleRate, .nat blockSize]
  | .dcfg cfg rawEn =>
    [.nat cfg.transformBlockSize, .num cfg.sampleRate, .channels cfg.channels, .num cfg.decodeThreshold,
      .num cfg.decodeBandpassQ, .num cfg.smoothing, .bool rawEn]
  | .frame mags => [.nums mags]
  | .detach => []
  | .ecfg cfg =>
    [.channels cfg.channels, .num cfg.encodeBandpassQ, .num cfg.encodeGainHigh, .num cfg.encodeGainLow,
      .num cfg.symbolDuration, .num cfg.symbolPause]
  | .encode symbols startTime => [.symbols symbols, .num startTime]

/-- The encoder: "its opcode byte from rule R52 followed by the payload values in the order of rules R53 to R56"
(R64). -/
def encode (i : Instr) : Command := ⟨i.opcode, i.payload⟩

/-- The unit a command belongs to (R52). -/
def Instr.unit : Instr → CoreUnit
  | .bin _ _ _ => .binmap
  | .dcfg _ _ => .dec
  | .frame _ => .dec
  | .detach => .dec
  | .ecfg _ => .enc
  | .encode _ _ => .enc

/-- Channel `k` of the payloads below: the centers 0, 1 Hz. -/
def twoChannels : List Channel := [⟨.zero, .zero⟩, ⟨.one, .zero⟩]

/-- The payload that stands for operand bits all zero, used by `decodeTableWord` and `State.withFetchWord` only.
`PAYLOAD_LAYOUT` is open (00_scope.md R8), so no spec rule says what those bits are: the model takes, for each format,
the least operands that meet R23 and R68 (DESIGN CHOICE, log 12). -/
def zeroPayload : PayloadFormat → List PayloadValue
  | .Q => [.num .zero, .num .one, .nat 1]
  | .DC => [.nat 4, .num (.fin 4), .channels twoChannels, .num .zero, .num .zero, .num .zero, .bool false]
  | .F => [.nums []]
  | .K => []
  | .EC => [.channels twoChannels, .num .zero, .num .zero, .num .zero, .num .one, .num .zero]
  | .E => [.symbols [], .num .zero]

/-- The command whose bits, numbered as the opcode table numbers them, are `w`: bits 7..0 are the opcode byte, and every
operand bit above is 0. -/
def tableCommand (w : Nat) : Command :=
  let opcode := BitVec.ofNat 8 w
  ⟨opcode, match formatOf opcode with
    | some f => zeroPayload f
    | none => []⟩

/-- The instruction the decoder reads from a table word: `nbits` is 8 in every row (the payload is typed), and a word
with a bit above bit 7 stands for no command. -/
def decodeTableWord (nbits w : Nat) : Option Instr :=
  if nbits = 8 ∧ w < 256 then
    match decode (tableCommand w) with
    | .instr i => some i
    | .reserved _ => none
    | .payloadMismatch _ => none
  else none

end Sys2Proof
end

