-- ==== Sys2Proof/Machine/State.lean ====
section
/-! DEFINITION. The state of the CORE: every register of spec/10_state.md R15, grouped by unit, and the four ports of
spec/30_encoding.md R49 as plain lists. The reasons a step can stop. -/

namespace Sys2Proof.Machine

/-- Status codes (30_encoding.md R57); 6 to 15 are never produced. -/
inductive Status where
  | ok | configError | notConfigured | illegalCmd | frameFault | detached
deriving DecidableEq, Repr

/-- Cause names (30_encoding.md R58). -/
inductive Cause where
  | tooFewChannels | nonMonotonic | range | overlap | symbolLength | length
deriving DecidableEq, Repr

/-- Events on the event port (30_encoding.md R59). -/
inductive Event where
  | rawFrame (frame : Frame)
  | symbol (bits : Symbol)
  | undecodable
deriving DecidableEq, Repr

/-- A setpoint record `(c, t, g)` on the timeline port (30_encoding.md R61). -/
structure Setpoint where
  c : Nat
  t : NUM
  g : NUM
deriving DecidableEq, Repr

/-- What the response port carries for one command (30_encoding.md R49 (2)): `cause = none` is cause code 0; `bin` is
the result BIN alone has. -/
structure Response where
  status : Status
  cause : Option Cause
  bin : Option Int
deriving DecidableEq, Repr

/-- Everything one command sends out: its response, its events and its setpoints, each in the order sent; the order
between the ports is `Reply.outputs`. -/
structure Reply where
  response : Response
  events : List Event
  setpoints : List Setpoint
deriving DecidableEq, Repr

/-- One item that leaves the CORE, on any of its three outgoing ports (30_encoding.md R49). -/
inductive Output where
  | event (e : Event)
  | setpoint (p : Setpoint)
  | response (r : Response)
deriving DecidableEq, Repr

/-- One move of the host: a command on the command port, or an assertion of the reset input (70_reset_and_hazards.md
R114, R118). -/
inductive HostMove where
  | command (c : Command)
  | reset
deriving DecidableEq, Repr

/-- The registers of unit DEC (10_state.md R15, R24 to R27). -/
structure Dec where
  /-- `dcfg.*` -/
  cfg : DecConfig
  /-- `dec_valid` -/
  valid : Bool
  /-- `dec_attached` -/
  attached : Bool
  /-- `dec_raw_en` -/
  rawEn : Bool
  /-- `clock_level`: `false` is CLOCK_LOW, `true` is CLOCK_HIGH -/
  clockLevel : Bool
  /-- `avg[0 .. C-1]` -/
  avg : List NUM
  /-- `collected` -/
  collected : Nat
deriving DecidableEq, Repr

/-- The registers of unit ENC (10_state.md R15, R28). -/
structure Enc where
  /-- `ecfg.*` -/
  cfg : EncConfig
  /-- `enc_valid` -/
  valid : Bool
  /-- `enc_t0` -/
  t0 : Option NUM
  /-- `enc_stop` -/
  stop : Option NUM
deriving DecidableEq, Repr

/-- The machine: the two units, and the ports as the host sees them. -/
structure State where
  dec : Dec
  enc : Enc
  /-- The host's moves not yet taken, oldest first (log 7). -/
  incoming : List HostMove
  /-- One reply per command that has ended, oldest first (log 8). -/
  transcript : List Reply
deriving DecidableEq, Repr

/-- The encoder's states, seen from outside (10_state.md R29). -/
inductive EncoderState where
  | idle | transmitting
deriving DecidableEq, Repr

/-- Why the machine stops with a fault. None is reachable from reset (log 17). -/
inductive Fault where
  /-- `MagRead` outside the frame: "no result" (20_memory.md R37; U2). Raised by FRAME. Safe: the spec gives no value. -/
  | magReadOutOfRange
  /-- An index of the channel space at or above the channel count, or above the length of `avg` (20_memory.md R35).
  Raised by FRAME. Safe: the spec gives no value. -/
  | channelIndexOutOfRange
  /-- `TlWrite` of a channel at or above the channel count, where R42 does not define it. Raised by ENCODE. Safe: the
  spec gives no value. -/
  | tlWriteOutOfRange
deriving DecidableEq, Repr

/-- Why a command has no meaning. -/
inductive Refusal where
  /-- The model has no meaning for the command yet. Raised by no arm now. Safe. -/
  | notModelled (mnemonic : String)
  /-- A `NUM` operand that is not a finite value of `NUM`: "outside this spec, treatment `refuse`" (00_scope.md R9; U4).
  Raised by every command with a `NUM` operand. Safe. -/
  | operandNotFinite
  /-- A payload that breaks a precondition: "outside this spec …, and the treatment is `refuse`" (10_state.md R23; U3;
  40_binmap.md R68). Raised by BIN, DCFG, ECFG and, above N_MAX, ENCODE. Safe. -/
  | illFormedPayload
  /-- A running sum that overflows `NUM`: "`refuse` (U4 applies to the result)" (93_implementation_defined.md U6; log 3).
  Raised by FRAME. Safe. -/
  | resultNotFinite
  /-- A payload that is not of the format its opcode selects (30_encoding.md R50; log 10). Raised by the step. Safe. -/
  | payloadMismatch
deriving DecidableEq, Repr

/-- The configuration registers while unconfigured: "unspecified; unreadable" (10_state.md R33). DESIGN CHOICE: every
field 0 or empty (log 6). -/
def resetDecConfig : DecConfig := ⟨0, .zero, [], .zero, .zero, .zero⟩

def resetEncConfig : EncConfig := ⟨[], .zero, .zero, .zero, .zero, .zero⟩

/-- 10_state.md R33, column "after reset", unit DEC. -/
def Dec.reset : Dec where
  cfg := resetDecConfig
  valid := false
  attached := false
  rawEn := false
  clockLevel := false
  avg := []
  collected := 0

/-- 10_state.md R33, column "after reset", unit ENC. -/
def Enc.reset : Enc where
  cfg := resetEncConfig
  valid := false
  t0 := none
  stop := none

/-- The machine right after reset (10_state.md R33; 70_reset_and_hazards.md R114): nothing on any port. -/
def State.reset : State where
  dec := Dec.reset
  enc := Enc.reset
  incoming := []
  transcript := []

end Sys2Proof.Machine
end

