-- ==== Sys2Proof/Machine/Ops.lean ====
section
/-! DEFINITION. The shared operations: how a command ends (spec/60_exceptions.md R104, spec/30_encoding.md R49), the
access primitives MagRead and TlWrite (spec/20_memory.md R37, R42), the codes of the ports (spec/30_encoding.md R57 to
R60), the reset input (spec/70_reset_and_hazards.md R114), and what the host computes from what it sees
(spec/10_state.md R29; spec/20_memory.md R43; spec/30_encoding.md R60). -/

namespace Sys2Proof.Machine

/-- The outcome of a command. -/
abbrev Result := Host.Outcome State Fault Refusal

/-! ## The end of a command -/

/-- One command has ended and its reply is on the ports: "exactly one response per command" (30_encoding.md R49). -/
def State.respond (r : Reply) (s : State) : State := { s with transcript := s.transcript ++ [r] }

/-- The reply of a command that ends in an error or is turned away: a status, a cause, nothing else. -/
def rejection (status : Status) (cause : Option Cause) : Reply := ⟨⟨status, cause, none⟩, [], []⟩

/-- `raise <Error>(cause)` (00_scope.md R11; 60_exceptions.md R104): "It writes no register, emits no event and writes no
setpoint"; nothing is saved, no mode changes, and there is no return from it (R105). -/
def raise (status : Status) (cause : Option Cause) (s : State) : Result := .next (s.respond (rejection status cause))

/-- The end with status OK of a command that sent these events and setpoints; `s` already holds its register writes. -/
def complete (events : List Event) (setpoints : List Setpoint) (s : State) : Result :=
  .next (s.respond ⟨⟨.ok, none, none⟩, events, setpoints⟩)

/-- A command that breaks a precondition has no meaning: non-finite operands (00_scope.md R9), then an ill-formed payload
(10_state.md R23). Tested before everything else (log 3). -/
def guarded (c : Config) (i : Instr) (meaning : Result) : Result :=
  if i.operandsFinite c then
    if i.payloadOk c then meaning else .refused .illFormedPayload
  else .refused .operandNotFinite

/-- IllegalCommand (60_exceptions.md R101): a reserved opcode; "the payload, if any, is ignored". -/
def illegalCommand (s : State) : Result := raise .illegalCmd none s

/-! ## The reset input -/

/-- The reset input (70_reset_and_hazards.md R114): "its assertion puts every register at the `after reset` value";
"setpoints already written to the timeline port stay". -/
def State.assertReset (s : State) : State := { s with dec := Dec.reset, enc := Enc.reset }

/-! ## Access primitives -/

/-- `MagRead(frame, k)` (20_memory.md R37): `none` is "no result". -/
def magRead (frame : Frame) (k : Int) : Option NUM := if 0 ≤ k then frame[k.toNat]? else none

/-- `TlWrite(c, t, g)` (20_memory.md R42) on a timeline of `count` channels: append, for `0 <= c < C` only. -/
def tlWrite (count : Nat) (timeline : List Setpoint) (p : Setpoint) : Option (List Setpoint) :=
  if p.c < count then some (timeline ++ [p]) else none

/-- A sequence of `TlWrite` calls. -/
def tlWriteAll (count : Nat) : List Setpoint → List Setpoint → Option (List Setpoint)
  | timeline, [] => some timeline
  | timeline, p :: rest =>
    match tlWrite count timeline p with
    | some timeline' => tlWriteAll count timeline' rest
    | none => none

/-! ## Codes -/

/-- `status[3:0]` (30_encoding.md R57). -/
def Status.code : Status → Nibble
  | .ok => 0
  | .configError => 1
  | .notConfigured => 2
  | .illegalCmd => 3
  | .frameFault => 4
  | .detached => 5

/-- `cause[3:0]` (30_encoding.md R58). -/
def Cause.code : Cause → Nibble
  | .tooFewChannels => 1
  | .nonMonotonic => 2
  | .range => 3
  | .overlap => 4
  | .symbolLength => 5
  | .length => 1

/-- `cause[3:0]` of a response: 0 where there is no cause (R58). -/
def Response.causeCode (r : Response) : Nibble :=
  match r.cause with
  | some c => c.code
  | none => 0

/-- `kind[1:0]` (30_encoding.md R59). -/
def Event.kind : Event → BitVec 2
  | .rawFrame _ => 0
  | .symbol _ => 1
  | .undecodable => 2

/-- A Bool as one bit, zero-extended to `n` bits (00_scope.md R11, R12). -/
def zextBool (n : Nat) (b : Bool) : BitVec n := (BitVec.ofBool b).zeroExtend n

/-- A symbol as one word (30_encoding.md R60): "sum over k of zext_N(bits[k]) * 2^k". -/
def symbolWord (n : Nat) : Symbol → BitVec n
  | [] => 0
  | b :: rest => zextBool n b + 2 * symbolWord n rest

/-! ## What the host computes from what it sees -/

/-- `enc_state(now)` (10_state.md R29): TRANSMITTING when `enc_t0 <= now < enc_stop`. -/
def encState (e : Enc) (now : NUM) : EncoderState :=
  match e.t0, e.stop with
  | some t0, some stop => if NUM.ge now t0 && NUM.lt now stop then .transmitting else .idle
  | _, _ => .idle

/-- `TL[c]`: the setpoints of one channel of a timeline, in sequence order (20_memory.md R41, R42). -/
def channelTimeline (timeline : List Setpoint) (c : Nat) : List (NUM × NUM) :=
  (timeline.filter fun p => p.c == c).map fun p => (p.t, p.g)

/-- The gain of a channel at time `x`, given the gain it had before (20_memory.md R43): "the `g` of the last setpoint
`(t, g)` of `TL[c]`, in sequence order, with `t <= x`". -/
def gainAfter (before : NUM) (tl : List (NUM × NUM)) (x : NUM) : NUM :=
  tl.foldl (fun g p => if NUM.ge x p.1 then p.2 else g) before

/-- The gain of channel `c` at time `x` under one timeline; a channel never written has `GAIN_IDLE` (R43; D28). -/
def gainAt (c : Config) (timeline : List Setpoint) (ch : Nat) (x : NUM) : NUM :=
  gainAfter c.gainIdle (channelTimeline timeline ch) x

/-- What one command sent, in time order: every SYMBOL and UNDECODABLE event "before that command's response"
(60_exceptions.md R107), and every setpoint too, the response being "issued when the command ends" (30_encoding.md R49;
42_encoder.md R88 writes `status` last). -/
def Reply.outputs (r : Reply) : List Output :=
  r.events.map .event ++ (r.setpoints.map .setpoint ++ [.response r.response])

/-- Everything the CORE has sent, in time order (60_exceptions.md R107; 20_memory.md R46 (d)). -/
def State.outputs (s : State) : List Output := s.transcript.flatMap Reply.outputs

/-- The event port of the whole transcript, in the order sent (20_memory.md R46 (d)). -/
def State.eventPort (s : State) : List Event := s.transcript.flatMap Reply.events

/-- The timeline port of the whole transcript, in the order sent (20_memory.md R42). -/
def State.timelinePort (s : State) : List Setpoint := s.transcript.flatMap Reply.setpoints

/-- The response port of the whole transcript, in the order sent (30_encoding.md R49). -/
def State.responsePort (s : State) : List Response := s.transcript.map Reply.response

end Sys2Proof.Machine
end

