-- ==== Sys2Proof/Machine/Binmap.lean ====
section
/-! DEFINITION. BINMAP (spec/40_binmap.md): the function `bin` and the command BIN. -/

namespace Sys2Proof.Machine

/-- `bin_size(sr, B) = sr / num(B)` (R67). -/
def binSize (f : NumFormat) (sampleRate : NUM) (blockSize : Nat) : NUM := NUM.div f sampleRate (NUM.ofNat blockSize)

/-- `(f + bin_size / 2) / bin_size`, "evaluated in that order" (R67). -/
def binQuotient (f : NumFormat) (freq sampleRate : NUM) (blockSize : Nat) : NUM :=
  let size := binSize f sampleRate blockSize
  NUM.div f (NUM.add f freq (NUM.div f size .two)) size

/-! ## Where the quotient is no finite value of `NUM` (log 9)

R67 gives the formula, R68 asks for "a negative index for `freq < -bin_size/2` and an index `>= B/2` for
`freq >= Nyquist - bin_size/2`", and R69 (a) for monotonicity "under binary64 without exception". These limits are kept,
and the value within them is free. -/

/-- The bin of the outermost sum that binary64 holds, `± greatest64`: no finite quotient lies beyond it. A bin size that
rounds to 0 has no finite quotient, and sets no bound here. The last finite quotient that some frequency attains may lie
a rounding step before this bound (DESIGN CHOICE, log 9). -/
def edgeBin (f : NumFormat) (sum : Rat) (sampleRate : NUM) (blockSize : Nat) : Int :=
  let size := binSize f sampleRate blockSize
  if NUM.eqv size .zero then 0
  else
    match NUM.div f (.fin sum) size with
    | .fin q => q.floor
    | .inf _ => sum.floor
    | .nan => 0

/-- `freq >= Nyquist - bin_size/2`, in exact arithmetic (R69 (e)). -/
def inTopHalfBin (freq sampleRate : NUM) (blockSize : Nat) : Bool :=
  match freq, sampleRate with
  | .fin x, .fin sr => decide (sr / 2 - sr / blockSize / 2 ≤ x)
  | _, _ => false

/-- The sum of the jumps at thresholds at or below `x`. -/
def stepsAt (steps : List (Rat × Nat)) (x : NUM) : Nat :=
  (steps.map fun p => if NUM.ge x (.fin p.1) then p.2 else 0).sum

/-- The bin of a frequency at or above 0: the free value, raised to its limit where it lies below. The limit is not below
any finite quotient, nor 0 (DESIGN CHOICE, log 9), nor, in the top half-bin and above it, `B/2`. -/
def binAbove (f : NumFormat) (freq sampleRate : NUM) (blockSize : Nat) : Int :=
  max
    (max (edgeBin f greatest64 sampleRate blockSize)
      (if inTopHalfBin freq sampleRate blockSize then ((blockSize / 2 : Nat) : Int) else 0))
    (stepsAt (Config.freeBinSteps false sampleRate blockSize) freq : Int)

/-- The bin of a frequency below 0: the free value, lowered to its limit where it lies above. The limit is negative, for
every frequency below 0 and not only below `-bin_size/2` (DESIGN CHOICE, log 9), and not above any finite quotient. -/
def binBelow (f : NumFormat) (freq sampleRate : NUM) (blockSize : Nat) : Int :=
  min (min (edgeBin f (-greatest64) sampleRate blockSize) (-1))
    (-(stepsAt (Config.freeBinSteps true sampleRate blockSize) freq.neg : Int))

/-- `bin(freq; sample_rate, transform_block_size)` (R67). -/
def bin (f : NumFormat) (freq sampleRate : NUM) (blockSize : Nat) : Int :=
  match (binQuotient f freq sampleRate blockSize).floor? with
  | some k => k
  | none =>
    if NUM.lt freq .zero then binBelow f freq sampleRate blockSize else binAbove f freq sampleRate blockSize

/-- BIN (R68): answers the bin, reads and writes no state. -/
def binCommand (c : Config) (freq sampleRate : NUM) (blockSize : Nat) (s : State) : Result :=
  guarded c (.bin freq sampleRate blockSize)
    (.next (s.respond ⟨⟨.ok, none, some (bin c.numFormat freq sampleRate blockSize)⟩, [], []⟩))

/-- BIN on the machine's build. -/
def execBin (freq sampleRate : NUM) (blockSize : Nat) (s : State) : Result :=
  binCommand Config.build freq sampleRate blockSize s

end Sys2Proof.Machine
end

