-- ==== Sys2Proof/Machine/Operands.lean ====
section
/-! DEFINITION. Channel roles (spec/10_state.md R19) and the one addressing mode of the CORE (spec/20_memory.md R38).
Every other operand "is used at the value given" (spec/30_encoding.md R50, R66). -/

namespace Sys2Proof.Machine

/-- `CLK`, `REF` and `DATA(k)` (10_state.md R19). -/
def CLK : Nat := 0
def REF : Nat := 1
def DATA (k : Nat) : Nat := k + 2

/-- The bin of a channel under a decoder configuration (20_memory.md R38; recomputed, D36). -/
def channelBin (f : NumFormat) (p : DecConfig) (ch : Channel) : Int :=
  bin f ch.center p.sampleRate p.transformBlockSize

/-- `m(c) = MagRead(frame, bin(dcfg.channels[c].center))` (20_memory.md R38). -/
def channelMag (f : NumFormat) (p : DecConfig) (frame : Frame) (ch : Channel) : Option NUM :=
  magRead frame (channelBin f p ch)

/-- `m[c]` for every channel, in index order; `none` where a `MagRead` has no result. -/
def channelMags (f : NumFormat) (p : DecConfig) (frame : Frame) : List Channel → Option (List NUM)
  | [] => some []
  | ch :: rest =>
    match channelMag f p frame ch, channelMags f p frame rest with
    | some m, some ms => some (m :: ms)
    | _, _ => none

/-- The elements of a frame, `B/2` (20_memory.md R36). -/
def frameLength (p : DecConfig) : Nat := p.transformBlockSize / 2

end Sys2Proof.Machine
end

