-- ==== Sys2Proof/Machine/Flags.lean ====
section
/-! DEFINITION. The one computed flag, `clock_level` (spec/41_decoder.md R76), the dispatch on its old and new value
(R77), and the normalised test of a data channel (R79). No arithmetic flag exists (spec/10_state.md R27). -/

namespace Sys2Proof.Machine

/-- `L = (m[0] - m[1]) > thr` (R76). -/
def clockLevelOf (f : NumFormat) (clock ref threshold : NUM) : Bool := NUM.gt (NUM.sub f clock ref) threshold

/-- The four cases of an admitted FRAME (R77). -/
inductive Edge where
  | rising | falling | heldHigh | heldLow
deriving DecidableEq, Repr

/-- The dispatch on (`old`, `L`) (R77). -/
def edgeOf (old new : Bool) : Edge :=
  match old, new with
  | false, true => .rising
  | true, false => .falling
  | true, true => .heldHigh
  | false, false => .heldLow

/-- The bit of one data channel (R79): `((avg / n - bit_low) / d) > 0.5`. -/
def dataBit (f : NumFormat) (n low d sum : NUM) : Bool :=
  NUM.gt (NUM.div f (NUM.sub f (NUM.div f sum n) low) d) .half

end Sys2Proof.Machine
end

