-- ==== Sys2Proof/Machine/Decoder.lean ====
section
/-! DEFINITION. DEC, the decoder state machine (spec/41_decoder.md): DCFG, FRAME and DETACH. -/

namespace Sys2Proof.Machine

/-! ## Construction -/

/-- Every center is below the next: the negation of check 2's "exists c … with not (center[c] < center[c+1])" (R72). -/
def strictlyIncreasing : List NUM → Bool
  | a :: b :: rest => NUM.lt a b && strictlyIncreasing (b :: rest)
  | [_] => true
  | [] => true

/-- Some two neighbours are equal: check 4 (R72). -/
def hasEqualNeighbours : List Int → Bool
  | a :: b :: rest => decide (a = b) || hasEqualNeighbours (b :: rest)
  | [_] => false
  | [] => false

/-- Checks 1 and 2 of R72, which are also the checks of ECFG (42_encoder.md R86). -/
def checkChannelList (channels : List Channel) : Option Cause :=
  if channels.length < 2 then some .tooFewChannels
  else if strictlyIncreasing (channels.map Channel.center) then none
  else some .nonMonotonic

/-- Check 3 of R72 for one channel. -/
def outOfRange (f : NumFormat) (p : DecConfig) (ch : Channel) : Bool :=
  NUM.lt ch.center .zero || NUM.ge ch.center (NUM.div f p.sampleRate .two) ||
    decide (channelBin f p ch ≥ (frameLength p : Int))

/-- The checks of DCFG, in order; the first that fails decides (R72, 60_exceptions.md R103). -/
def checkDcfg (f : NumFormat) (p : DecConfig) : Option Cause :=
  match checkChannelList p.channels with
  | some cause => some cause
  | none =>
    if p.channels.any (outOfRange f p) then some .range
    else if hasEqualNeighbours (p.channels.map (channelBin f p)) then some .overlap
    else none

/-- The decoder just after a successful DCFG (R71, R73; 10_state.md R33). -/
def Dec.fresh (p : DecConfig) (rawEn : Bool) : Dec where
  cfg := p
  valid := true
  attached := true
  rawEn := rawEn
  clockLevel := false
  avg := List.replicate p.channels.length .zero
  collected := 0

/-- DCFG (R71). -/
def dcfgCommand (c : Config) (p : DecConfig) (rawEn : Bool) (s : State) : Result :=
  guarded c (.dcfg p rawEn) <|
    match checkDcfg c.numFormat p with
    | some cause => raise .configError (some cause) s
    | none => complete [] [] { s with dec := Dec.fresh p rawEn }

/-- DCFG on the machine's build. -/
def execDcfg (p : DecConfig) (rawEn : Bool) (s : State) : Result := dcfgCommand Config.build p rawEn s

/-! ## The four cases of a frame -/

/-- Rising edge (R78): "zero all `averages`, reset `collected` to 0"; the frame's own magnitudes are not used. -/
def Dec.risingEdge (d : Dec) : Dec :=
  { d with clockLevel := true, avg := List.replicate d.cfg.channels.length .zero, collected := 0 }

/-- Held high (R82): one addition per channel. -/
def Dec.sums (f : NumFormat) (d : Dec) (m : List NUM) : List NUM := List.zipWith (NUM.add f) d.avg m

def Dec.heldHigh (f : NumFormat) (d : Dec) (m : List NUM) : Dec :=
  { d with clockLevel := true, avg := d.sums f m, collected := d.collected + 1 }

/-- Falling edge and held low write `clock_level` alone (R79, R83). -/
def Dec.lowered (d : Dec) : Dec := { d with clockLevel := false }

/-- The symbol of a window, or UNDECODABLE (R79, R81): `clock`, `ref` and `data` are the running sums, `n` the count. -/
def symbolEvent (f : NumFormat) (n clock ref : NUM) (data : List NUM) : Event :=
  let high := NUM.div f clock n
  let low := NUM.div f ref n
  if NUM.eqv high low then .undecodable
  else .symbol (data.map (dataBit f n low (NUM.sub f high low)))

/-- What a falling edge emits (R79 to R81); `none` where an index of `avg` has no element. -/
def Dec.fallingEvents (f : NumFormat) (d : Dec) : Option (List Event) :=
  if d.collected = 0 then some []
  else if d.avg.length = d.cfg.channels.length then
    match d.avg with
    | clock :: ref :: data => some [symbolEvent f (NUM.ofNat d.collected) clock ref data]
    | _ => none
  else none

/-- RAW_FRAME, first of all events (R75). -/
def rawEvents (d : Dec) (frame : Frame) : List Event := if d.rawEn then [.rawFrame frame] else []

/-- The case of an admitted frame with magnitudes `m` (R74, R77). -/
def frameCase (c : Config) (frame : Frame) (m : List NUM) (s : State) : Edge → Result
  | .rising => complete (rawEvents s.dec frame) [] { s with dec := s.dec.risingEdge }
  | .falling =>
    match s.dec.fallingEvents c.numFormat with
    | some events => complete (rawEvents s.dec frame ++ events) [] { s with dec := s.dec.lowered }
    | none => .fault .channelIndexOutOfRange
  | .heldHigh =>
    if s.dec.avg.length = s.dec.cfg.channels.length then
      if (s.dec.sums c.numFormat m).all NUM.isFinite then
        complete (rawEvents s.dec frame) [] { s with dec := s.dec.heldHigh c.numFormat m }
      else .refused .resultNotFinite
    else .fault .channelIndexOutOfRange
  | .heldLow => complete (rawEvents s.dec frame) [] { s with dec := s.dec.lowered }

/-- A frame past the admission tests of R74: read `m[0 .. C-1]`, compute the level, take the case. -/
def admittedFrame (c : Config) (frame : Frame) (s : State) : Result :=
  match channelMags c.numFormat s.dec.cfg frame s.dec.cfg.channels with
  | none => .fault .magReadOutOfRange
  | some [] => .fault .channelIndexOutOfRange
  | some [_] => .fault .channelIndexOutOfRange
  | some (clock :: ref :: rest) =>
    frameCase c frame (clock :: ref :: rest) s
      (edgeOf s.dec.clockLevel (clockLevelOf c.numFormat clock ref s.dec.cfg.decodeThreshold))

/-- FRAME (R74): the admission tests in the order of 60_exceptions.md R103. -/
def frameCommand (c : Config) (frame : Frame) (s : State) : Result :=
  guarded c (.frame frame) <|
    if s.dec.valid = false then raise .notConfigured none s
    else if s.dec.attached = false then raise .detached none s
    else if frame.length ≠ frameLength s.dec.cfg then raise .frameFault (some .length) s
    else admittedFrame c frame s

/-- FRAME on the machine's build. -/
def execFrame (frame : Frame) (s : State) : Result := frameCommand Config.build frame s

/-! ## Detachment -/

/-- DETACH (R84). -/
def execDetach (s : State) : Result :=
  if s.dec.valid = false then raise .notConfigured none s
  else complete [] [] { s with dec := { s.dec with attached := false } }

end Sys2Proof.Machine
end

