-- ==== Sys2Proof/Machine/Encoder.lean ====
section
/-! DEFINITION. ENC, the encoder scheduler (spec/42_encoder.md): ECFG and ENCODE. -/

namespace Sys2Proof.Machine

/-! ## Construction -/

/-- The encoder just after a successful ECFG (R85, R87; 10_state.md R33). -/
def Enc.fresh (p : EncConfig) : Enc where
  cfg := p
  valid := true
  t0 := none
  stop := none

/-- ECFG (R85), with the two checks of R86. -/
def ecfgCommand (c : Config) (p : EncConfig) (s : State) : Result :=
  guarded c (.ecfg p) <|
    match checkChannelList p.channels with
    | some cause => raise .configError (some cause) s
    | none => complete [] [] { s with enc := Enc.fresh p }

/-- ECFG on the machine's build. -/
def execEcfg (p : EncConfig) (s : State) : Result := ecfgCommand Config.build p s

/-! ## Slot timing (R90): "Each is evaluated as written (product first, then sum)" -/

/-- `P = symbol_duration + symbol_pause`. -/
def slotLength (f : NumFormat) (p : EncConfig) : NUM := NUM.add f p.symbolDuration p.symbolPause

/-- `t_i = t0 + num(i) * P`. -/
def slotStart (f : NumFormat) (p : EncConfig) (t0 : NUM) (i : Nat) : NUM :=
  NUM.add f t0 (NUM.mul f (NUM.ofNat i) (slotLength f p))

/-- `stop_t = t0 + num(N) * P`; with no symbol it is "`t0` exactly" (R95 (b)), also where `P` overflows binary64 (log 4). -/
def stopTime (f : NumFormat) (p : EncConfig) (t0 : NUM) (n : Nat) : NUM := if n = 0 then t0 else slotStart f p t0 n

/-- `rise_i = t_i + 0.25 * P`. -/
def riseTime (f : NumFormat) (p : EncConfig) (t0 : NUM) (i : Nat) : NUM :=
  NUM.add f (slotStart f p t0 i) (NUM.mul f .quarter (slotLength f p))

/-- `fall_i = t_i + 0.75 * P`. -/
def fallTime (f : NumFormat) (p : EncConfig) (t0 : NUM) (i : Nat) : NUM :=
  NUM.add f (slotStart f p t0 i) (NUM.mul f .threeQuarters (slotLength f p))

/-! ## The timeline -/

/-- `HI if bit else LO` (R93). -/
def bitGain (p : EncConfig) (b : Bool) : NUM := if b then p.encodeGainHigh else p.encodeGainLow

/-- The data setpoints of one slot: channel `k + 2` at `t_i` for each `k` (R93). -/
def dataCalls (p : EncConfig) (t : NUM) (k : Nat) : Symbol → List Setpoint
  | [] => []
  | b :: rest => ⟨DATA k, t, bitGain p b⟩ :: dataCalls p t (k + 1) rest

/-- The `TlWrite` calls of slot `i`: the data channels, then the clock pulse (R88, R91, R93). -/
def slotCalls (f : NumFormat) (p : EncConfig) (t0 : NUM) (i : Nat) (symbol : Symbol) : List Setpoint :=
  dataCalls p (slotStart f p t0 i) 0 symbol ++
    [⟨CLK, riseTime f p t0 i, p.encodeGainHigh⟩, ⟨CLK, fallTime f p t0 i, p.encodeGainLow⟩]

/-- The calls of the slots from `i` on. -/
def slotsCalls (f : NumFormat) (p : EncConfig) (t0 : NUM) (i : Nat) : List Symbol → List Setpoint
  | [] => []
  | symbol :: rest => slotCalls f p t0 i symbol ++ slotsCalls f p t0 (i + 1) rest

/-- The shutdown: gain 0 on every channel at `stop_t` (R94). -/
def shutdownCalls (count : Nat) (stop : NUM) : List Setpoint := (List.range count).map fun c => ⟨c, stop, .zero⟩

/-- Every `TlWrite` call of an ENCODE, in call order (R88). -/
def encodeCalls (f : NumFormat) (p : EncConfig) (symbols : List Symbol) (t0 : NUM) : List Setpoint :=
  ⟨REF, t0, p.encodeGainLow⟩ ::
    (slotsCalls f p t0 0 symbols ++ shutdownCalls p.channels.length (stopTime f p t0 symbols.length))

/-- Some symbol has a length other than `C - 2` (R89). -/
def symbolLengthWrong (p : EncConfig) (symbols : List Symbol) : Bool :=
  symbols.any fun symbol => decide (symbol.length + 2 ≠ p.channels.length)

/-- The scheduling of an ENCODE past its checks (R88). A timestamp beyond binary64's range is what the IEEE operations of
R9 give, an infinity (log 4). -/
def schedule (c : Config) (symbols : List Symbol) (t0 : NUM) (s : State) : Result :=
  let p := s.enc.cfg
  match tlWriteAll p.channels.length [] (encodeCalls c.numFormat p symbols t0) with
  | none => .fault .tlWriteOutOfRange
  | some timeline =>
    complete [] timeline
      { s with enc := { s.enc with t0 := some t0, stop := some (stopTime c.numFormat p t0 symbols.length) } }

/-- ENCODE (R88): the tests in the order of 60_exceptions.md R103. -/
def encodeCommand (c : Config) (symbols : List Symbol) (t0 : NUM) (s : State) : Result :=
  guarded c (.encode symbols t0) <|
    if s.enc.valid = false then raise .notConfigured none s
    else if symbolLengthWrong s.enc.cfg symbols then raise .configError (some .symbolLength) s
    else schedule c symbols t0 s

/-- ENCODE on the machine's build. -/
def execEncode (symbols : List Symbol) (t0 : NUM) (s : State) : Result := encodeCommand Config.build symbols t0 s

end Sys2Proof.Machine
end

