-- ==== Sys2Proof/Machine/Dispatch.lean ====
section
/-! DEFINITION. One arm per command (spec/30_encoding.md R52). -/

namespace Sys2Proof.Machine

def exec (i : Instr) (s : State) : Host.Outcome State Fault Refusal :=
  match i with
  | .bin freq sampleRate blockSize => Sys2Proof.Machine.execBin freq sampleRate blockSize s
  | .dcfg cfg rawEn => Sys2Proof.Machine.execDcfg cfg rawEn s
  | .frame mags => Sys2Proof.Machine.execFrame mags s
  | .detach => Sys2Proof.Machine.execDetach s
  | .ecfg cfg => Sys2Proof.Machine.execEcfg cfg s
  | .encode symbols startTime => Sys2Proof.Machine.execEncode symbols startTime s

end Sys2Proof.Machine
end

