-- ==== Sys2Proof/Machine/Step.lean ====
section
/-! DEFINITION. One step: the host's next move is taken and runs to its end (spec/20_memory.md R46 (a)). With no move
left "the host issues no more" and the CORE is quiescent (spec/70_reset_and_hazards.md R118; log 7). -/

namespace Sys2Proof.Machine

def step (s : State) : Host.Outcome State Fault Refusal :=
  match s.incoming with
  | [] => .next s
  | .reset :: rest => .next { s with incoming := rest }.assertReset
  | .command cmd :: rest =>
    match decode cmd with
    | .instr i => exec i { s with incoming := rest }
    | .reserved _ => illegalCommand { s with incoming := rest }
    | .payloadMismatch _ => .refused .payloadMismatch

/-- The state in which the host's next move is the command that the table word `w` stands for (log 12): the host issues
it, so it stands first on the command port. A word that is no opcode byte places nothing. -/
def State.withFetchWord (s : State) (nbits w : Nat) : State :=
  if nbits = 8 ∧ w < 256 then { s with incoming := .command (tableCommand w) :: s.incoming } else s

end Sys2Proof.Machine
end

