-- ==== Sys2Proof/Machine/Assembler.lean ====
section
/-! DEFINITION. The textual form of commands and replies (spec/30_encoding.md R64) and the pseudo-instructions (R65). A
line is a list of characters; "Operands are `name=value` pairs in any order, except the last, unnamed operand". What R64
leaves open (a name given twice, spaces) is in log 16. -/

namespace Sys2Proof.Machine.Asm

/-- A word (a mnemonic, a name or a literal) or one mark of punctuation. -/
inductive Token where
  | word (cs : List Char)
  | mark (c : Char)
deriving DecidableEq, Repr

/-- The braces of the sparse frame (R65), by code: the model's literals hold none. -/
def openBrace : Char := Char.ofNat 123
def closeBrace : Char := Char.ofNat 125

def isWordChar (c : Char) : Bool := c.isAlphanum || c == '.' || c == '-' || c == '+'

def opens (c : Char) : Bool := c == '(' || c == '[' || c == openBrace
def closes (c : Char) : Bool := c == ')' || c == ']' || c == closeBrace

def flush (acc : List Char) (rest : List Token) : List Token :=
  if acc.isEmpty then rest else .word acc.reverse :: rest

/-- The tokens of a line; a `;` outside every bracket "starts a comment" (R64). -/
def tokens (depth : Nat) (acc : List Char) : List Char → List Token
  | [] => flush acc []
  | c :: rest =>
    if isWordChar c then tokens depth (c :: acc) rest
    else if c == ';' && depth == 0 then flush acc []
    else if c == ' ' then flush acc (tokens depth [] rest)
    else
      flush acc (.mark c :: tokens (if opens c then depth + 1 else if closes c then depth - 1 else depth) [] rest)

/-! ## Literals -/

def digit? (c : Char) : Option Nat := if c.isDigit then some (c.toNat - '0'.toNat) else none

/-- Digits after `acc`: the number, and what follows the digits. -/
def digits (acc : Nat) : List Char → Nat × List Char
  | [] => (acc, [])
  | c :: rest =>
    match digit? c with
    | some d => digits (acc * 10 + d) rest
    | none => (acc, c :: rest)

def startsWithDigit : List Char → Bool
  | c :: _ => c.isDigit
  | [] => false

/-- `<nat>`: "a decimal natural number" (R64). -/
def nat? (cs : List Char) : Option Nat :=
  if startsWithDigit cs && (digits 0 cs).2.isEmpty then some (digits 0 cs).1 else none

/-- A decimal without sign. -/
def unsigned? (cs : List Char) : Option Rat :=
  if startsWithDigit cs then
    match digits 0 cs with
    | (n, []) => some (n : Rat)
    | (n, '.' :: frac) =>
      if startsWithDigit frac && (digits 0 frac).2.isEmpty then
        some ((n : Rat) + mkRat (digits 0 frac).1 (10 ^ frac.length))
      else none
    | _ => none
  else none

/-- `<num>`: "a decimal literal with an optional sign and fraction …, read as the `NUM` nearest to it" (R64). -/
def num? (f : NumFormat) : List Char → Option NUM
  | '-' :: cs => (unsigned? cs).map fun q => f.round (-q)
  | '+' :: cs => (unsigned? cs).map f.round
  | cs => (unsigned? cs).map f.round

/-- `0|1` is `false|true` (R64). -/
def bit? : List Char → Option Bool
  | ['0'] => some false
  | ['1'] => some true
  | _ => none

def word? {α : Type} (read : List Char → Option α) : List Token → Option α
  | [.word cs] => read cs
  | _ => none

/-! ## Bracketed operands -/

def mapAll {α β : Type} (g : α → Option β) : List α → Option (List β)
  | [] => some []
  | a :: rest =>
    match g a, mapAll g rest with
    | some b, some bs => some (b :: bs)
    | _, _ => none

/-- The parts between the marks `sep` outside every inner bracket. -/
def splitAtMark (sep : Char) (depth : Nat) (acc : List Token) : List Token → List (List Token)
  | [] => [acc.reverse]
  | .mark c :: rest =>
    if c == sep && depth == 0 then acc.reverse :: splitAtMark sep 0 [] rest
    else splitAtMark sep (if opens c then depth + 1 else if closes c then depth - 1 else depth) (.mark c :: acc) rest
  | .word cs :: rest => splitAtMark sep depth (.word cs :: acc) rest

/-- The comma-separated parts; nothing at all is the empty sequence. -/
def parts (ts : List Token) : List (List Token) := if ts.isEmpty then [] else splitAtMark ',' 0 [] ts

/-- What stands between the brackets `l` and `r`. -/
def between (l r : Char) : List Token → Option (List Token)
  | .mark c :: rest => if c == l && rest.getLast? == some (.mark r) then some rest.dropLast else none
  | _ => none

def numList? (f : NumFormat) (ts : List Token) : Option (List NUM) := mapAll (word? (num? f)) (parts ts)

def nums? (f : NumFormat) (ts : List Token) : Option (List NUM) :=
  match between '[' ']' ts with
  | some inner => numList? f inner
  | none => none

/-- `(<center>,<gain>)`. -/
def channel? (f : NumFormat) (ts : List Token) : Option Channel :=
  match between '(' ')' ts with
  | some inner =>
    match numList? f inner with
    | some [center, gain] => some ⟨center, gain⟩
    | _ => none
  | none => none

def channels? (f : NumFormat) (ts : List Token) : Option (List Channel) :=
  match between '[' ']' ts with
  | some inner => mapAll (channel? f) (parts inner)
  | none => none

/-- `[<0|1>, ...]`. -/
def symbol? (ts : List Token) : Option Symbol :=
  match between '[' ']' ts with
  | some inner => mapAll (word? bit?) (parts inner)
  | none => none

def symbols? (ts : List Token) : Option (List Symbol) :=
  match between '[' ']' ts with
  | some inner => mapAll symbol? (parts inner)
  | none => none

/-! ## Operands of a line -/

/-- One operand: its name, empty for the unnamed one, and its tokens. -/
structure Operand where
  name : List Char
  value : List Token
deriving DecidableEq, Repr

/-- One word, or one bracketed group, at the front; the rest. -/
def takeGroup (depth : Nat) (acc : List Token) : List Token → List Token × List Token
  | [] => (acc.reverse, [])
  | .word cs :: rest => if depth == 0 then ((.word cs :: acc).reverse, rest) else takeGroup depth (.word cs :: acc) rest
  | .mark c :: rest =>
    if closes c && depth == 1 then ((.mark c :: acc).reverse, rest)
    else takeGroup (if opens c then depth + 1 else if closes c then depth - 1 else depth) (.mark c :: acc) rest

/-- The operands of a line; the first argument bounds the recursion. -/
def operands : Nat → List Token → List Operand
  | 0, _ => []
  | _ + 1, [] => []
  | n + 1, .word name :: .mark '=' :: rest => ⟨name, (takeGroup 0 [] rest).1⟩ :: operands n (takeGroup 0 [] rest).2
  | n + 1, t :: rest => ⟨[], (takeGroup 0 [] (t :: rest)).1⟩ :: operands n (takeGroup 0 [] (t :: rest)).2

/-- The operand of that name, read. -/
def get? {α : Type} (ops : List Operand) (name : String) (read : List Token → Option α) : Option α :=
  match ops.find? (fun o => o.name == name.toList) with
  | some o => read o.value
  | none => none

/-! ## Lines -/

/-- A line: a command of R64, or a pseudo-instruction of R65. -/
inductive Line where
  | command (i : Instr)
  | sparseFrame (listed : List (Nat × NUM)) (other : NUM) (len : Nat)   -- R65 (a)
  | channelFrame (mags : List NUM) (other : NUM)                        -- R65 (b)
  | repeated (n : Nat) (line : Line)                                    -- R65 (c)
deriving Repr

/-- `k:v`. -/
def listedMag? (f : NumFormat) : List Token → Option (Nat × NUM)
  | [.word k, .mark ':', .word v] =>
    match nat? k, num? f v with
    | some k, some v => some (k, v)
    | _, _ => none
  | _ => none

/-- `else v` and `len n`. -/
def keyword? {α : Type} (name : String) (read : List Char → Option α) : List Token → Option α
  | [.word k, .word v] => if k == name.toList then read v else none
  | _ => none

def sparse? (f : NumFormat) (ts : List Token) : Option Line :=
  match between openBrace closeBrace ts with
  | some inner =>
    match splitAtMark ';' 0 [] inner with
    | [listed, other, len] =>
      match mapAll (listedMag? f) (parts listed), keyword? "else" (num? f) other, keyword? "len" nat? len with
      | some listed, some other, some len => some (.sparseFrame listed other len)
      | _, _, _ => none
    | _ => none
  | none => none

def channelFrame? (f : NumFormat) (ts : List Token) : Option Line :=
  match between '(' ')' ts with
  | some inner =>
    match splitAtMark ';' 0 [] inner with
    | [mags, other] =>
      match numList? f mags, keyword? "else" (num? f) other with
      | some mags, some other => some (.channelFrame mags other)
      | _, _ => none
    | _ => none
  | none => none

def frame? (f : NumFormat) (ops : List Operand) : Option Line :=
  match ops with
  | [⟨[], ts⟩] =>
    match nums? f ts with
    | some mags => some (.command (.frame mags))
    | none => sparse? f ts
  | _ => none

def bin? (f : NumFormat) (ops : List Operand) : Option Line := do
  let freq ← get? ops "f" (word? (num? f))
  let sr ← get? ops "sr" (word? (num? f))
  let b ← get? ops "B" (word? nat?)
  if ops.length = 3 then some (.command (.bin freq sr b)) else none

def dcfg? (f : NumFormat) (ops : List Operand) : Option Line := do
  let b ← get? ops "B" (word? nat?)
  let sr ← get? ops "sr" (word? (num? f))
  let ch ← get? ops "ch" (channels? f)
  let thr ← get? ops "thr" (word? (num? f))
  let q ← get? ops "q" (word? (num? f))
  let smooth ← get? ops "smooth" (word? (num? f))
  let raw ← get? ops "raw" (word? bit?)
  if ops.length = 7 then some (.command (.dcfg ⟨b, sr, ch, thr, q, smooth⟩ raw)) else none

def ecfg? (f : NumFormat) (ops : List Operand) : Option Line := do
  let ch ← get? ops "ch" (channels? f)
  let q ← get? ops "q" (word? (num? f))
  let hi ← get? ops "hi" (word? (num? f))
  let lo ← get? ops "lo" (word? (num? f))
  let dur ← get? ops "dur" (word? (num? f))
  let pause ← get? ops "pause" (word? (num? f))
  if ops.length = 6 then some (.command (.ecfg ⟨ch, q, hi, lo, dur, pause⟩)) else none

/-- ENCODE. R64 shows the unnamed operand last and says nothing of another place: the model takes it in any (DESIGN
CHOICE, log 16). -/
def encode? (f : NumFormat) (ops : List Operand) : Option Line := do
  let t0 ← get? ops "t0" (word? (num? f))
  let symbols ← get? ops "" symbols?
  if ops.length = 2 then some (.command (.encode symbols t0)) else none

/-- A line from its mnemonic and operands. -/
def plainLine? (f : NumFormat) (mnemonic : List Char) (ops : List Operand) : Option Line :=
  if mnemonic == "BIN".toList then bin? f ops
  else if mnemonic == "DCFG".toList then dcfg? f ops
  else if mnemonic == "FRAME".toList then frame? f ops
  else if mnemonic == "FRAMEC".toList then
    match ops with
    | [⟨[], ts⟩] => channelFrame? f ts
    | _ => none
  else if mnemonic == "DETACH".toList then (if ops.isEmpty then some (.command .detach) else none)
  else if mnemonic == "ECFG".toList then ecfg? f ops
  else if mnemonic == "ENCODE".toList then encode? f ops
  else none

/-- A line from its tokens; the first argument bounds nested `REPEAT`s. -/
def lineOf? (f : NumFormat) : Nat → List Token → Option Line
  | 0, _ => none
  | fuel + 1, .word m :: .word count :: .mark ':' :: rest =>
    if m == "REPEAT".toList then
      match nat? count, lineOf? f fuel rest with
      | some n, some line => some (.repeated n line)
      | _, _ => none
    else none
  | _ + 1, .word m :: rest => plainLine? f m (operands rest.length rest)
  | _ + 1, _ => none

/-- A line of text, read (R64). -/
def parse? (f : NumFormat) (text : List Char) : Option Line :=
  let ts := tokens 0 [] text
  lineOf? f ts.length ts

/-! ## Expansion (R65): "each expands to commands … and adds nothing to the hardware" -/

def lookupMag (listed : List (Nat × NUM)) (other : NUM) (k : Nat) : NUM :=
  match listed.find? (fun p => p.1 == k) with
  | some p => p.2
  | none => other

/-- R65 (a): the frame of length `len` whose element `k` is the value listed for `k`, or `other`. -/
def sparseMags (listed : List (Nat × NUM)) (other : NUM) (len : Nat) : Frame :=
  (List.range len).map (lookupMag listed other)

/-- The value `v` at bin `k`, as the sparse frame lists it; a negative bin names no element. -/
def listedAt (k : Int) (v : NUM) : Option (Nat × NUM) := if 0 ≤ k then some (k.toNat, v) else none

/-- R65 (b): the value of channel `c` at that channel's bin, every other bin at `other`. After a DCFG line that the CORE
rejects, a channel may have a bin outside the frame, of which R65 says nothing: its value then goes nowhere, whether the
bin is negative or at or above `B/2`, and of two channels on one bin the first counts (DESIGN CHOICE, log 16). -/
def channelMagsFrame (f : NumFormat) (p : DecConfig) (mags : List NUM) (other : NUM) : Frame :=
  sparseMags (((p.channels.map (channelBin f p)).zip mags).filterMap fun q => listedAt q.1 q.2) other (frameLength p)

/-- The commands a line stands for, after the DCFG `p` if there was one: FRAMEC is "legal only after a DCFG". -/
def expand (f : NumFormat) (p : Option DecConfig) : Line → Option (List Command)
  | .command i => some [encode i]
  | .sparseFrame listed other len => some [encode (.frame (sparseMags listed other len))]
  | .channelFrame mags other =>
    match p with
    | some p => if mags.length = p.channels.length then some [encode (.frame (channelMagsFrame f p mags other))] else none
    | none => none
  | .repeated n line =>
    match expand f p line with
    | some cs => some (List.replicate n cs).flatten
    | none => none

/-- The DCFG in force after a line. -/
def configAfter (p : Option DecConfig) : Line → Option DecConfig
  | .command (.dcfg cfg _) => some cfg
  | .command (.bin _ _ _) => p
  | .command (.frame _) => p
  | .command .detach => p
  | .command (.ecfg _) => p
  | .command (.encode _ _) => p
  | .sparseFrame _ _ _ => p
  | .channelFrame _ _ => p
  | .repeated n line => if n = 0 then p else configAfter p line

/-- The commands of a program, one line of text each. R64 does not say what a line without a command is (blank, or a
comment only): the model passes over it (DESIGN CHOICE, log 16). -/
def assemble (f : NumFormat) (p : Option DecConfig) : List (List Char) → Option (List Command)
  | [] => some []
  | text :: rest =>
    if (tokens 0 [] text).isEmpty then assemble f p rest
    else
      match parse? f text with
      | some line =>
        match expand f p line, assemble f (configAfter p line) rest with
        | some cs, some more => some (cs ++ more)
        | _, _ => none
      | none => none

/-! ## Replies as text (R64) -/

def statusName : Status → String
  | .ok => "OK"
  | .configError => "CONFIG_ERROR"
  | .notConfigured => "NOT_CONFIGURED"
  | .illegalCmd => "ILLEGAL_CMD"
  | .frameFault => "FRAME_FAULT"
  | .detached => "DETACHED"

def causeName : Cause → String
  | .tooFewChannels => "TOO_FEW_CHANNELS"
  | .nonMonotonic => "NON_MONOTONIC"
  | .range => "RANGE"
  | .overlap => "OVERLAP"
  | .symbolLength => "SYMBOL_LENGTH"
  | .length => "LENGTH"

/-- `-> <STATUS>` or `-> <STATUS>(<CAUSE>)`; BIN's result follows as in 40_binmap.md R68's example. -/
def responseText (r : Response) : String :=
  "-> " ++ statusName r.status ++
    (match r.cause with
      | some c => "(" ++ causeName c ++ ")"
      | none => "") ++
    (match r.bin with
      | some k => ", bin = " ++ toString k
      | none => "")

def bitText (b : Bool) : String := if b then "1" else "0"

/-- `! SYMBOL [..]`, `! RAW_FRAME`, `! UNDECODABLE`. -/
def eventText : Event → String
  | .rawFrame _ => "! RAW_FRAME"
  | .symbol bits => "! SYMBOL [" ++ String.intercalate "," (bits.map bitText) ++ "]"
  | .undecodable => "! UNDECODABLE"

/-- The digits of a fraction below 1, `k` of them. -/
def fractionText (k n : Nat) : String :=
  let ds := toString n
  String.ofList (List.replicate (k - ds.length) '0') ++ ds

/-- A number as a decimal literal where it has one, else as a quotient (log 16). -/
def numText : NUM → String
  | .fin q =>
    let sign := if q < 0 then "-" else ""
    match (List.range (Nat.log2 q.den + 1)).find? (fun k => 10 ^ k % q.den == 0) with
    | some k =>
      let n := q.num.natAbs * 10 ^ k / q.den
      sign ++ toString (n / 10 ^ k) ++ (if k = 0 then "" else "." ++ fractionText k (n % 10 ^ k))
    | none => sign ++ toString q.num.natAbs ++ "/" ++ toString q.den
  | .inf n => if n then "-inf" else "inf"
  | .nan => "nan"

/-- `@ (c, t, g)`. -/
def setpointText (p : Setpoint) : String :=
  "@ (" ++ toString p.c ++ "," ++ numText p.t ++ "," ++ numText p.g ++ ")"

/-- A reply: the response, then the events, then the setpoints. -/
def replyText (r : Reply) : List String :=
  responseText r.response :: (r.events.map eventText ++ r.setpoints.map setpointText)

end Sys2Proof.Machine.Asm
end

