-- ==== Sys2Proof/Safety.lean ====
section
/-! DEFINITION. What claims are stated in: the named launch premises of spec/70_reset_and_hazards.md R120, the host's
duty of R126, and the invariant of every state a run reaches (spec/10_state.md R30; spec/41_decoder.md R72, R73;
spec/42_encoder.md R86, R87). -/

namespace Sys2Proof.Machine

/-- `Configured(DEC)` (R120). -/
def Dec.Configured (d : Dec) : Prop := d.valid = true ∧ d.attached = true

/-- `Configured(ENC)` (R120). -/
def Enc.Configured (e : Enc) : Prop := e.valid = true

/-- `Idle(ENC, now)` (R120). -/
def Enc.Idle (e : Enc) (now : NUM) : Prop := encState e now = .idle

/-- `FiniteInputs` (R120), for one command. -/
def FiniteInputs (c : Config) (i : Instr) : Prop := i.operandsFinite c = true

/-- `WellFormed(cfg)` (R120), for the payload of one command: every clause of 10_state.md R23, "every `NUM` field is
finite" (c) among them. -/
def WellFormedPayload (c : Config) (i : Instr) : Prop := i.wellFormed c = true

/-- `Fresh(DEC)` (R120): "the state just after a successful DCFG", one with a well-formed payload that passes the four
checks of 41_decoder.md R72. -/
def Dec.Fresh (c : Config) (d : Dec) : Prop :=
  ∃ p rawEn, WellFormedPayload c (.dcfg p rawEn) ∧ checkDcfg c.numFormat p = none ∧ d = Dec.fresh p rawEn

/-- What the host must keep to when it issues an ENCODE (R126): `t0` "at or after the previous `enc_stop` and at or after
the present time". The CORE does not test it. Once an ECFG or a reset has cleared the register `enc_stop`, R126 does not
say whether the stop time of a transmission still playing goes on binding the host: the model reads the register, so a
cleared one sets no bound on `t0` (DESIGN CHOICE, log 14). -/
def Enc.MayTransmit (e : Enc) (t0 now : NUM) : Prop :=
  (∀ stop, e.stop = some stop → NUM.ge t0 stop = true) ∧ NUM.ge t0 now = true

/-- The invariant of unit DEC. -/
structure Dec.Inv (d : Dec) : Prop where
  /-- Before construction every working register is at its reset value (10_state.md R33). -/
  unconfigured : d.valid = false →
    d.attached = false ∧ d.rawEn = false ∧ d.clockLevel = false ∧ d.avg = [] ∧ d.collected = 0
  /-- "channel count ≥ 2" (10_state.md R30 (a)). -/
  twoChannels : d.valid = true → 2 ≤ d.cfg.channels.length
  /-- "`averages` length == channel count" (10_state.md R30 (b)). -/
  avgLength : d.valid = true → d.avg.length = d.cfg.channels.length
  /-- The stored configuration passed the four checks (41_decoder.md R72). -/
  passesChecks : d.valid = true → checkDcfg Config.build.numFormat d.cfg = none
  /-- The stored configuration is well-formed (10_state.md R23). -/
  wellFormed : d.valid = true →
    d.cfg.isFinite Config.build.numFormat = true ∧ d.cfg.wellFormed Config.build = true
  /-- Every channel's bin is an index of the frame (41_decoder.md R72: "within `0 .. B/2 - 1`"). -/
  binsInFrame : d.valid = true → ∀ ch ∈ d.cfg.channels,
    0 ≤ channelBin Config.build.numFormat d.cfg ch ∧
      channelBin Config.build.numFormat d.cfg ch < (frameLength d.cfg : Int)
  /-- Every running sum is finite (93_implementation_defined.md U6). -/
  avgFinite : ∀ a ∈ d.avg, a.isFinite = true
  /-- With nothing collected the running sums are exactly zero (10_state.md R30 (d)). -/
  avgZero : d.collected = 0 → ∀ a ∈ d.avg, a = .zero

/-- The invariant of unit ENC. -/
structure Enc.Inv (e : Enc) : Prop where
  /-- Before construction there is no transmission (10_state.md R33). -/
  unconfigured : e.valid = false → e.t0 = none ∧ e.stop = none
  /-- The stored configuration passed the two checks (42_encoder.md R86). -/
  passesChecks : e.valid = true → checkChannelList e.cfg.channels = none
  /-- The stored configuration is well-formed (10_state.md R23). -/
  wellFormed : e.valid = true →
    e.cfg.isFinite Config.build.numFormat = true ∧ e.cfg.wellFormed Config.build = true
  /-- `enc_t0` and `enc_stop` are written and cleared together (10_state.md R28). -/
  together : e.t0.isSome = e.stop.isSome
  /-- The start time is a finite value of `NUM`, as every operand is (00_scope.md R9). -/
  startFinite : ∀ t, e.t0 = some t → t.isValue Config.build.numFormat = true

/-- The invariant of the machine. -/
structure State.Inv (s : State) : Prop where
  dec : s.dec.Inv
  enc : s.enc.Inv

end Sys2Proof.Machine
end

