-- ==== Sys2Proof/Certificates/Slice0/Obligations.lean ====
section
/-! DEFINITION. The statements for the provers. Every statement about `exec` is about the machine's build
(`Config.build`: binary64, no limits); a statement that the spec makes "in exact arithmetic" is about the operations at
`NumFormat.exact`. Each docstring names the rule of spec/ it formalises. -/

namespace Sys2Proof.Claims

open Sys2Proof.Machine

/-- The reply of a command that ended OK with these events and setpoints. -/
def okReply (events : List Event) (setpoints : List Setpoint) : Reply := ⟨⟨.ok, none, none⟩, events, setpoints⟩

/-- The reply of a command that ended with an error status: no result, no event, no setpoint. -/
def errorReply (status : Status) (cause : Option Cause) : Reply := ⟨⟨status, cause, none⟩, [], []⟩

/-- The state after a command that only answered: every register as before, one more reply. -/
def Answered (s : State) (r : Reply) : State := { s with transcript := s.transcript ++ [r] }

/-- The admission tests of 41_decoder.md R74 pass, and every magnitude is a finite value of NUM (00_scope.md R9). -/
def FrameAdmitted (s : State) (fr : Frame) : Prop :=
  s.dec.valid = true ∧ s.dec.attached = true ∧ fr.length = s.dec.cfg.transformBlockSize / 2 ∧
    ∀ x ∈ fr, x.isValue .binary64 = true

/-- `m[c] = MagRead(frame, bin(center[c]))` for every channel (20_memory.md R37, R38). -/
def FrameReads (s : State) (fr : Frame) (m : List NUM) : Prop :=
  m.length = s.dec.cfg.channels.length ∧
    ∀ (c : Nat) (ch : Channel) (x : NUM), s.dec.cfg.channels[c]? = some ch → m[c]? = some x →
      0 ≤ bin .binary64 ch.center s.dec.cfg.sampleRate s.dec.cfg.transformBlockSize ∧
        fr[(bin .binary64 ch.center s.dec.cfg.sampleRate s.dec.cfg.transformBlockSize).toNat]? = some x

/-- The clock level of a frame whose magnitudes are `m` (41_decoder.md R76): `L = (m[0] - m[1]) > thr`. -/
def Level (s : State) (m : List NUM) (level : Bool) : Prop :=
  ∃ clock ref, m[0]? = some clock ∧ m[1]? = some ref ∧
    level = NUM.gt (NUM.sub .binary64 clock ref) s.dec.cfg.decodeThreshold

/-- RAW_FRAME, when the raw-frame observer is given (41_decoder.md R75). -/
def rawOf (s : State) (fr : Frame) : List Event := if s.dec.rawEn = true then [.rawFrame fr] else []

/-- Check 2 of 41_decoder.md R72: every center is below the next one. -/
def CentersIncrease (channels : List Channel) : Prop :=
  ∀ (c : Nat) (a b : Channel), channels[c]? = some a → channels[c + 1]? = some b → NUM.lt a.center b.center = true

/-- Check 3 of 41_decoder.md R72, for one channel. -/
def InRange (p : DecConfig) (ch : Channel) : Prop :=
  NUM.lt ch.center .zero = false ∧ NUM.ge ch.center (NUM.div .binary64 p.sampleRate .two) = false ∧
    bin .binary64 ch.center p.sampleRate p.transformBlockSize < ((p.transformBlockSize / 2 : Nat) : Int)

/-- Check 4 of 41_decoder.md R72: no two neighbours share a bin. -/
def BinsDiffer (p : DecConfig) : Prop :=
  ∀ (c : Nat) (a b : Channel), p.channels[c]? = some a → p.channels[c + 1]? = some b →
    bin .binary64 a.center p.sampleRate p.transformBlockSize ≠
      bin .binary64 b.center p.sampleRate p.transformBlockSize

/-- The sum of channel `c` over frames whose magnitudes are `ms`, added left to right to `a` (41_decoder.md R82). -/
def sumLeft (ms : List (List NUM)) (c : Nat) (a : NUM) : NUM :=
  ms.foldl (fun sum m => NUM.add .binary64 sum (m.getD c (.fin 0))) a

/-- Slot timing (42_encoder.md R90), at the machine's NUM. -/
def slotP (e : EncConfig) : NUM := NUM.add .binary64 e.symbolDuration e.symbolPause
def startAt (e : EncConfig) (t0 : NUM) (i : Nat) : NUM :=
  NUM.add .binary64 t0 (NUM.mul .binary64 (NUM.ofNat i) (slotP e))
def riseAt (e : EncConfig) (t0 : NUM) (i : Nat) : NUM :=
  NUM.add .binary64 (startAt e t0 i) (NUM.mul .binary64 (.fin (1 / 4)) (slotP e))
def fallAt (e : EncConfig) (t0 : NUM) (i : Nat) : NUM :=
  NUM.add .binary64 (startAt e t0 i) (NUM.mul .binary64 (.fin (3 / 4)) (slotP e))

/-- `stop_t` of `n` symbols (R90), "`t0` exactly" for none (R95 (b)). -/
def stopAt (e : EncConfig) (t0 : NUM) (n : Nat) : NUM := if n = 0 then t0 else startAt e t0 n

/-- Every symbol has the configured number of data channels (42_encoder.md R89). -/
def SymbolsFit (e : EncConfig) (symbols : List Symbol) : Prop := ∀ sym ∈ symbols, sym.length + 2 = e.channels.length

/-- The values the spec gives for reset (10_state.md R33); the configuration registers are unspecified there. -/
def Unconfigured (s : State) : Prop :=
  s.dec.valid = false ∧ s.dec.attached = false ∧ s.dec.rawEn = false ∧ s.dec.clockLevel = false ∧ s.dec.avg = [] ∧
    s.dec.collected = 0 ∧ s.enc.valid = false ∧ s.enc.t0 = none ∧ s.enc.stop = none

/-- The finite values of binary64: `m * 2 ^ e` with `|m| < 2 ^ 53` and `-1074 ≤ e ≤ 971` (IEEE 754, 00_scope.md R9). -/
def Representable (x : Rat) : Prop :=
  ∃ (m e : Int), m.natAbs < 2 ^ 53 ∧ -1074 ≤ e ∧ e ≤ 971 ∧ x = (m : Rat) * (2 : Rat) ^ e

end Sys2Proof.Claims

open Sys2Proof Sys2Proof.Machine Sys2Proof.Claims

/-! ## Encoding and the step -/

/-- 30_encoding.md R51 to R56: the six opcode bytes, written out as `unit` and `fn`, with the payload values in order. -/
def Obligations.OpcodeBytesDecodeAsTabled : Prop :=
  (∀ f sr b, decode ⟨0b0000_0000#8, [.num f, .num sr, .nat b]⟩ = .instr (.bin f sr b)) ∧
  (∀ b sr ch thr q sm raw,
    decode ⟨0b0001_0000#8, [.nat b, .num sr, .channels ch, .num thr, .num q, .num sm, .bool raw]⟩ =
      .instr (.dcfg ⟨b, sr, ch, thr, q, sm⟩ raw)) ∧
  (∀ fr, decode ⟨0b0001_0001#8, [.nums fr]⟩ = .instr (.frame fr)) ∧
  decode ⟨0b0001_0010#8, []⟩ = .instr .detach ∧
  (∀ ch q hi lo dur pause,
    decode ⟨0b0010_0000#8, [.channels ch, .num q, .num hi, .num lo, .num dur, .num pause]⟩ =
      .instr (.ecfg ⟨ch, q, hi, lo, dur, pause⟩)) ∧
  (∀ ss t0, decode ⟨0b0010_0001#8, [.symbols ss, .num t0]⟩ = .instr (.encode ss t0))

/-- 30_encoding.md R50, R52, R63: a command decodes to an instruction exactly when it is that instruction's encoding. -/
def Obligations.DecodeIsTheInverseOfEncode : Prop :=
  ∀ (cmd : Command) (i : Instr), decode cmd = .instr i ↔ cmd = encode i

/-- 60_exceptions.md R101, over the ranges of 30_encoding.md R62. -/
def Obligations.ReservedOpcodesAnswerIllegalCmd : Prop :=
  ∀ (s : State) (cmd : Byte) (payload : List PayloadValue) (rest : List HostMove),
    s.incoming = .command ⟨cmd, payload⟩ :: rest →
    ((1 ≤ cmd.toNat ∧ cmd.toNat ≤ 0x0F) ∨ (0x13 ≤ cmd.toNat ∧ cmd.toNat ≤ 0x1F) ∨
      (0x22 ≤ cmd.toNat ∧ cmd.toNat ≤ 0x2F) ∨ 0x30 ≤ cmd.toNat) →
    step s = .next (Answered { s with incoming := rest } (errorReply .illegalCmd none))

/-- 20_memory.md R46 (a); 30_encoding.md R49: the step takes the first move on the command port and runs the instruction
the decoder reads from it. A payload of another format than the opcode selects is refused (the model's choice, log 10). -/
def Obligations.StepRunsTheDecodedCommand : Prop :=
  ∀ (s : State) (cmd : Command) (rest : List HostMove), s.incoming = .command cmd :: rest →
    (∀ i, decode cmd = .instr i → step s = exec i { s with incoming := rest }) ∧
    (∀ b, decode cmd = .payloadMismatch b → step s = .refused .payloadMismatch)

/-- 30_encoding.md R52: the table's six words, placed as the host's next move, are fetched and run by the very next step
(the payloads are the model's choice, log 12). -/
def Obligations.TableWordsAreFetchedAndRun : Prop :=
  ∀ w ∈ [0x00, 0x10, 0x11, 0x12, 0x20, 0x21], ∃ i, decodeTableWord 8 w = some i ∧ i.opcode.toNat = w ∧
    ∀ s : State, step (s.withFetchWord 8 w) = exec i s

/-- 00_scope.md R9 and 10_state.md R23: a command with a non-finite operand or an ill-formed payload has no meaning, in
every state. -/
def Obligations.CommandsOutsideTheSpecAreRefused : Prop :=
  ∀ (i : Instr) (s : State),
    (i.operandsFinite Config.build = false → exec i s = .refused .operandNotFinite) ∧
    (i.operandsFinite Config.build = true → i.payloadOk Config.build = false → exec i s = .refused .illFormedPayload)

/-- 10_state.md R23 (a) to (g): what a well-formed configuration payload is, clause by clause, on finite fields. -/
def Obligations.WellFormedConfigurationClauses : Prop :=
  (∀ (c : Config) (b : Nat) (sr thr q sm : Rat) (ch : List Channel) (raw : Bool),
    (Instr.dcfg ⟨b, .fin sr, ch, .fin thr, .fin q, .fin sm⟩ raw).payloadOk c = true ↔
      (∃ k, 1 ≤ k ∧ b = 2 ^ k) ∧ 0 < sr ∧ (0 ≤ sm ∧ sm < 1) ∧ ∀ limit, c.cMax = some limit → ch.length ≤ limit) ∧
  (∀ (c : Config) (q hi lo dur pause total : Rat) (ch : List Channel),
    NUM.add c.numFormat (.fin dur) (.fin pause) = .fin total →
    ((Instr.ecfg ⟨ch, .fin q, .fin hi, .fin lo, .fin dur, .fin pause⟩).payloadOk c = true ↔
      (0 ≤ lo ∧ lo ≤ 1) ∧ (0 ≤ hi ∧ hi ≤ 1) ∧ 0 < total ∧ ∀ limit, c.cMax = some limit → ch.length ≤ limit)) ∧
  (∀ (c : Config) (p : DecConfig) (raw : Bool),
    (Instr.dcfg p raw).operandsFinite c = true ↔
      p.sampleRate.isValue c.numFormat = true ∧
        (∀ ch ∈ p.channels, ch.center.isValue c.numFormat = true ∧ ch.gain.isValue c.numFormat = true) ∧
        p.decodeThreshold.isValue c.numFormat = true ∧ p.decodeBandpassQ.isValue c.numFormat = true ∧
        p.smoothing.isValue c.numFormat = true) ∧
  (∀ (c : Config) (p : EncConfig),
    (Instr.ecfg p).operandsFinite c = true ↔
      (∀ ch ∈ p.channels, ch.center.isValue c.numFormat = true ∧ ch.gain.isValue c.numFormat = true) ∧
        p.encodeBandpassQ.isValue c.numFormat = true ∧ p.encodeGainHigh.isValue c.numFormat = true ∧
        p.encodeGainLow.isValue c.numFormat = true ∧ p.symbolDuration.isValue c.numFormat = true ∧
        p.symbolPause.isValue c.numFormat = true)

/-! ## Numbers -/

/-- 00_scope.md R9: one rounding of an operation gives the representable value nearest to the exact result, a tie between
two representable values goes to the one that is an even multiple of the last place, and exactly the magnitudes at or
above `2 ^ 1024 - 2 ^ 970` overflow, to the infinity of their sign (what "round-to-nearest-even" says in IEEE 754,
log 1). -/
def Obligations.RoundingIsToTheNearestValue : Prop :=
  (∀ x y : Rat, round64 x = .fin y → Representable y ∧ (∀ z, Representable z → |x - y| ≤ |x - z|) ∧
    ∃ k : Int, y = (k : Rat) * ulp64 x ∧
      ∀ z, Representable z → z ≠ y → |x - z| = |x - y| → k % 2 = 0) ∧
  (∀ r : Rat, |r - roundTiesEven r| ≤ 1 / 2 ∧ (|r - roundTiesEven r| = 1 / 2 → roundTiesEven r % 2 = 0)) ∧
  ∀ (x : Rat) (n : Bool), round64 x = .inf n ↔ (2 : Rat) ^ 1024 - 2 ^ 970 ≤ |x| ∧ (n = true ↔ x < 0)

/-- 00_scope.md R9: what an operation gives is again a value of NUM, so it may be an operand of the next one. -/
def Obligations.ResultsAreValues : Prop :=
  ∀ (f : NumFormat) (x y : Rat), f.round x = .fin y → (NUM.fin y).isValue f = true

/-! ## BINMAP -/

/-- 40_binmap.md R67, R68: BIN answers OK with the greatest integer not above the quotient, in every state, and changes
no register. -/
def Obligations.BinAnswersTheFloorOfTheQuotient : Prop :=
  ∀ (freq sr : NUM) (b : Nat) (s : State), freq.isValue .binary64 = true → sr.isValue .binary64 = true →
    NUM.gt sr .zero = true → 1 ≤ b →
    ∃ k : Int, exec (.bin freq sr b) s = .next (Answered s ⟨⟨.ok, none, some k⟩, [], []⟩) ∧
      ∀ size quotient, size = NUM.div .binary64 sr (NUM.ofNat b) →
        NUM.div .binary64 (NUM.add .binary64 freq (NUM.div .binary64 size .two)) size = .fin quotient →
        (k : Rat) ≤ quotient ∧ quotient < (k : Rat) + 1

/-- 40_binmap.md R69 (a), in both instantiations of NUM and "without exception": `bin` is non-decreasing, also where a
quotient is no finite number of NUM, whatever the free value there (log 9). -/
def Obligations.BinIsMonotone : Prop :=
  ∀ (f : NumFormat) (x y sr : Rat) (b : Nat), 0 < sr → 1 ≤ b → x ≤ y →
    bin f (.fin x) (.fin sr) b ≤ bin f (.fin y) (.fin sr) b

/-- 40_binmap.md R68: "a negative index for `freq < -bin_size/2` and an index `>= B/2` for `freq >= Nyquist - bin_size/2`",
in exact arithmetic for every frequency, and under binary64 wherever the quotient is no finite number, whatever the free
value there. Two parts of the binary64 half are the MODEL'S CHOICE (DESIGN CHOICE, log 9) and given by neither R68 nor
R69 (e): that a frequency at or above 0 has a bin at or above 0, and that every negative frequency, not only one below
`-bin_size/2`, has a negative bin. For an odd `B` the formula of R67 gives the floor of `B/2`. -/
def Obligations.BinOutsideTheFrame : Prop :=
  (∀ (x sr : Rat) (b : Nat), 0 < sr → 1 ≤ b →
    (x < -(sr / b / 2) → bin .exact (.fin x) (.fin sr) b < 0) ∧
    (sr / 2 - sr / b / 2 ≤ x → ((b / 2 : Nat) : Int) ≤ bin .exact (.fin x) (.fin sr) b)) ∧
  ∀ (x sr : Rat) (b : Nat), 0 < sr → 1 ≤ b → (∀ q, binQuotient .binary64 (.fin x) (.fin sr) b ≠ .fin q) →
    (x < 0 → bin .binary64 (.fin x) (.fin sr) b < 0) ∧ (0 ≤ x → 0 ≤ bin .binary64 (.fin x) (.fin sr) b) ∧
      (sr / 2 - sr / b / 2 ≤ x → ((b / 2 : Nat) : Int) ≤ bin .binary64 (.fin x) (.fin sr) b)

/-- 40_binmap.md R69 (b), (c), (d) in exact arithmetic: bin `k` is the image of the half-open interval of width
`bin_size` around `k * bin_size`. -/
def Obligations.BinIsTheHalfOpenInterval : Prop :=
  ∀ (x sr : Rat) (b : Nat) (k : Int), 0 < sr → 1 ≤ b →
    (bin .exact (.fin x) (.fin sr) b = k ↔
      (k : Rat) * (sr / b) - sr / b / 2 ≤ x ∧ x < (k : Rat) * (sr / b) + sr / b / 2) ∧
    bin .exact (.fin ((k : Rat) * (sr / b))) (.fin sr) b = k

/-- 40_binmap.md R69 (e) in exact arithmetic: below Nyquist the bin lies in `0 .. B/2`, and is `B/2` exactly in the top
half-bin. -/
def Obligations.TopHalfBinIndexesPastTheFrame : Prop :=
  ∀ (x sr : Rat) (h : Nat), 0 < sr → 1 ≤ h → 0 ≤ x → x < sr / 2 →
    0 ≤ bin .exact (.fin x) (.fin sr) (2 * h) ∧ bin .exact (.fin x) (.fin sr) (2 * h) ≤ (h : Int) ∧
      (bin .exact (.fin x) (.fin sr) (2 * h) = (h : Int) ↔ sr / 2 - sr / ((2 * h : Nat) : Rat) / 2 ≤ x)

/-! ## DEC: construction and detachment -/

/-- 41_decoder.md R71, R73: a DCFG whose payload passes the four checks starts a fresh instance, from every state. -/
def Obligations.DcfgStartsAFreshDecoder : Prop :=
  ∀ (p : DecConfig) (raw : Bool) (s : State),
    (Instr.dcfg p raw).operandsFinite Config.build = true → (Instr.dcfg p raw).payloadOk Config.build = true →
    2 ≤ p.channels.length → CentersIncrease p.channels → (∀ ch ∈ p.channels, InRange p ch) → BinsDiffer p →
    exec (.dcfg p raw) s = .next
      { s with
        dec :=
          { cfg := p, valid := true, attached := true, rawEn := raw, clockLevel := false,
            avg := List.replicate p.channels.length (.fin 0), collected := 0 }
        transcript := s.transcript ++ [okReply [] []] }

/-- 70_reset_and_hazards.md R120: `Fresh(DEC)` is "the state just after a successful DCFG", of a decoder register file
that some OK-answered DCFG leaves. -/
def Obligations.FreshIsAfterASuccessfulDcfg : Prop :=
  ∀ d : Dec, d.Fresh Config.build ↔
    ∃ (p : DecConfig) (raw : Bool) (s t : State) (r : Reply), exec (.dcfg p raw) s = .next t ∧
      t.transcript = s.transcript ++ [r] ∧ r.response.status = .ok ∧ t.dec = d

/-- 41_decoder.md R72 and 60_exceptions.md R103: the four checks of DCFG, in order; "the first that fails decides the
cause", and nothing is written. -/
def Obligations.DcfgChecksDecideInOrder : Prop :=
  ∀ (p : DecConfig) (raw : Bool) (s : State),
    (Instr.dcfg p raw).operandsFinite Config.build = true → (Instr.dcfg p raw).payloadOk Config.build = true →
    (p.channels.length < 2 →
      exec (.dcfg p raw) s = .next (Answered s (errorReply .configError (some .tooFewChannels)))) ∧
    (2 ≤ p.channels.length → ¬ CentersIncrease p.channels →
      exec (.dcfg p raw) s = .next (Answered s (errorReply .configError (some .nonMonotonic)))) ∧
    (2 ≤ p.channels.length → CentersIncrease p.channels → (¬ ∀ ch ∈ p.channels, InRange p ch) →
      exec (.dcfg p raw) s = .next (Answered s (errorReply .configError (some .range)))) ∧
    (2 ≤ p.channels.length → CentersIncrease p.channels → (∀ ch ∈ p.channels, InRange p ch) → ¬ BinsDiffer p →
      exec (.dcfg p raw) s = .next (Answered s (errorReply .configError (some .overlap))))

/-- 41_decoder.md R72, its derived property, in exact arithmetic: past the four checks the bins are strictly increasing
and within the frame. -/
def Obligations.AcceptedBinsAreDistinctAndInFrame : Prop :=
  ∀ (p : DecConfig) (sr : Rat), p.sampleRate = .fin sr → 0 < sr → 1 ≤ p.transformBlockSize →
    (∀ ch ∈ p.channels, ∃ x, ch.center = .fin x) → checkDcfg .exact p = none →
    List.Pairwise (· < ·) (p.channels.map (channelBin .exact p)) ∧
      ∀ ch ∈ p.channels, 0 ≤ channelBin .exact p ch ∧ channelBin .exact p ch < ((p.transformBlockSize / 2 : Nat) : Int)

/-- 41_decoder.md R84: DETACH clears `dec_attached` alone; afterwards every FRAME is answered DETACHED and does nothing;
DETACH again is OK; without an instance it is answered NOT_CONFIGURED. -/
def Obligations.DetachStopsDecoding : Prop :=
  ∀ s : State,
    (s.dec.valid = false → exec .detach s = .next (Answered s (errorReply .notConfigured none))) ∧
    (s.dec.valid = true →
      ∃ t, t = { s with
              dec := { s.dec with attached := false }
              transcript := s.transcript ++ [okReply [] []] } ∧
        exec .detach s = .next t ∧
        exec .detach t = .next (Answered t (okReply [] [])) ∧
        ∀ fr : Frame, (∀ x ∈ fr, x.isValue .binary64 = true) →
          exec (.frame fr) t = .next (Answered t (errorReply .detached none)))

/-- 41_decoder.md R84: only a successful DCFG attaches again ("There is no ATTACH command"). -/
def Obligations.OnlyDcfgAttaches : Prop :=
  ∀ (i : Instr) (s t : State), exec i s = .next t → s.dec.attached = false → t.dec.attached = true →
    ∃ p raw, i = .dcfg p raw ∧ t.dec.cfg = p ∧ t.dec.rawEn = raw

/-! ## DEC: frames -/

/-- 60_exceptions.md R102, R103: the admission tests of FRAME, in order, each with no effect but the answer. -/
def Obligations.FrameAdmissionTestsInOrder : Prop :=
  ∀ (fr : Frame) (s : State), (∀ x ∈ fr, x.isValue .binary64 = true) →
    (s.dec.valid = false → exec (.frame fr) s = .next (Answered s (errorReply .notConfigured none))) ∧
    (s.dec.valid = true → s.dec.attached = false →
      exec (.frame fr) s = .next (Answered s (errorReply .detached none))) ∧
    (s.dec.valid = true → s.dec.attached = true → fr.length ≠ s.dec.cfg.transformBlockSize / 2 →
      exec (.frame fr) s = .next (Answered s (errorReply .frameFault (some .length))))

/-- 41_decoder.md R78: the rising edge zeroes every running sum and the count, whatever they were, and uses none of the
frame's magnitudes. -/
def Obligations.RisingEdgeZeroesTheSums : Prop :=
  ∀ (s : State) (fr : Frame) (m : List NUM), FrameAdmitted s fr → FrameReads s fr m →
    s.dec.clockLevel = false → Level s m true →
    exec (.frame fr) s = .next
      { s with
        dec := { s.dec with
          clockLevel := true, avg := List.replicate s.dec.cfg.channels.length (.fin 0), collected := 0 }
        transcript := s.transcript ++ [okReply (rawOf s fr) []] }

/-- 41_decoder.md R82: held high adds each channel's magnitude to its running sum and 1 to the count. -/
def Obligations.HeldHighAccumulatesEveryChannel : Prop :=
  ∀ (s : State) (fr : Frame) (m : List NUM), FrameAdmitted s fr → FrameReads s fr m →
    s.dec.clockLevel = true → Level s m true → s.dec.avg.length = s.dec.cfg.channels.length →
    (∀ (c : Nat) (a x : NUM), s.dec.avg[c]? = some a → m[c]? = some x →
      (NUM.add .binary64 a x).isFinite = true) →
    ∃ sums : List NUM,
      exec (.frame fr) s = .next
        { s with
          dec := { s.dec with clockLevel := true, avg := sums, collected := s.dec.collected + 1 }
          transcript := s.transcript ++ [okReply (rawOf s fr) []] } ∧
      sums.length = s.dec.cfg.channels.length ∧
      ∀ (c : Nat) (a x : NUM), s.dec.avg[c]? = some a → m[c]? = some x → sums[c]? = some (NUM.add .binary64 a x)

/-- 41_decoder.md R83: held low is a no-op. -/
def Obligations.HeldLowChangesNothing : Prop :=
  ∀ (s : State) (fr : Frame) (m : List NUM), FrameAdmitted s fr → FrameReads s fr m →
    s.dec.clockLevel = false → Level s m false →
    exec (.frame fr) s = .next (Answered s (okReply (rawOf s fr) []))

/-- 41_decoder.md R80: a falling edge with nothing collected lowers the clock and emits neither SYMBOL nor UNDECODABLE,
for any prior state. -/
def Obligations.TruncatedWindowEmitsNothing : Prop :=
  ∀ (s : State) (fr : Frame) (m : List NUM), FrameAdmitted s fr → FrameReads s fr m →
    s.dec.clockLevel = true → Level s m false → s.dec.collected = 0 →
    exec (.frame fr) s = .next
      { s with
        dec := { s.dec with clockLevel := false }
        transcript := s.transcript ++ [okReply (rawOf s fr) []] }

/-- 41_decoder.md R79: the falling edge normalises each data channel's mean between the reference's and the clock's and
thresholds it at 0.5; the sums and the count stay. -/
def Obligations.FallingEdgeEmitsTheThresholdedSymbol : Prop :=
  ∀ (s : State) (fr : Frame) (m : List NUM) (clock ref n high low : NUM), FrameAdmitted s fr → FrameReads s fr m →
    s.dec.clockLevel = true → Level s m false → s.dec.collected ≠ 0 →
    s.dec.avg.length = s.dec.cfg.channels.length → s.dec.avg[0]? = some clock → s.dec.avg[1]? = some ref →
    n = NUM.ofNat s.dec.collected →
    high = NUM.div .binary64 clock n → low = NUM.div .binary64 ref n → NUM.eqv high low = false →
    ∃ bits : Symbol,
      exec (.frame fr) s = .next
        { s with
          dec := { s.dec with clockLevel := false }
          transcript := s.transcript ++ [okReply (rawOf s fr ++ [.symbol bits]) []] } ∧
      bits.length + 2 = s.dec.cfg.channels.length ∧
      ∀ (k : Nat) (a : NUM), s.dec.avg[k + 2]? = some a →
        bits[k]? = some (NUM.gt
          (NUM.div .binary64 (NUM.sub .binary64 (NUM.div .binary64 a n) low) (NUM.sub .binary64 high low))
          (.fin (1 / 2)))

/-- 41_decoder.md R81: equal means of clock and reference give one UNDECODABLE and no SYMBOL. -/
def Obligations.DegenerateCalibrationIsUndecodable : Prop :=
  ∀ (s : State) (fr : Frame) (m : List NUM) (clock ref n : NUM), FrameAdmitted s fr → FrameReads s fr m →
    s.dec.clockLevel = true → Level s m false → s.dec.collected ≠ 0 →
    s.dec.avg.length = s.dec.cfg.channels.length → s.dec.avg[0]? = some clock → s.dec.avg[1]? = some ref →
    n = NUM.ofNat s.dec.collected →
    NUM.eqv (NUM.div .binary64 clock n) (NUM.div .binary64 ref n) = true →
    exec (.frame fr) s = .next
      { s with
        dec := { s.dec with clockLevel := false }
        transcript := s.transcript ++ [okReply (rawOf s fr ++ [.undecodable]) []] }

/-- 93_implementation_defined.md U6: a running sum that leaves NUM's range has no meaning: the FRAME stops. -/
def Obligations.RunningSumOverflowIsRefused : Prop :=
  ∀ (s : State) (fr : Frame) (m : List NUM) (c : Nat) (a x : NUM), FrameAdmitted s fr → FrameReads s fr m →
    s.dec.clockLevel = true → Level s m true → s.dec.avg.length = s.dec.cfg.channels.length →
    s.dec.avg[c]? = some a → m[c]? = some x → (NUM.add .binary64 a x).isFinite = false →
    exec (.frame fr) s = .refused .resultNotFinite

/-- 41_decoder.md R75: with the observer given, an admitted FRAME emits its operand unchanged as the first event and
once; otherwise no RAW_FRAME is emitted. -/
def Obligations.RawFrameComesFirstAndOnce : Prop :=
  ∀ (s t : State) (fr : Frame), exec (.frame fr) s = .next t →
    ∃ r, t.transcript = s.transcript ++ [r] ∧
      (FrameAdmitted s fr → s.dec.rawEn = true →
        ∃ rest, r.events = .rawFrame fr :: rest ∧ ∀ x, .rawFrame x ∉ rest) ∧
      ((¬ FrameAdmitted s fr ∨ s.dec.rawEn = false) → ∀ x, .rawFrame x ∉ r.events)

/-- 10_state.md R30 (e): a symbol is emitted by a FRAME alone, at a falling edge with something collected, at most once,
and its length is `C - 2`. -/
def Obligations.SymbolsOnlyAtFallingEdges : Prop :=
  ∀ (i : Instr) (s t : State), exec i s = .next t →
    ∃ r, t.transcript = s.transcript ++ [r] ∧
      ∀ bits, .symbol bits ∈ r.events →
        (∃ fr, i = .frame fr ∧ r.events = rawOf s fr ++ [.symbol bits]) ∧ s.dec.clockLevel = true ∧
          t.dec.clockLevel = false ∧ s.dec.collected ≠ 0 ∧ bits.length + 2 = s.dec.cfg.channels.length

/-- 10_state.md R30 (c): `collected` increments only while `clock_level` is true, and by one. -/
def Obligations.CollectedGrowsOnlyWhileHigh : Prop :=
  ∀ (i : Instr) (s t : State), exec i s = .next t → s.dec.collected < t.dec.collected →
    s.dec.clockLevel = true ∧ t.dec.clockLevel = true ∧ t.dec.collected = s.dec.collected + 1 ∧ ∃ fr, i = .frame fr

/-- 41_decoder.md R82, its derived run property: over consecutive held-high frames the count grows by their number and
each running sum is the left-to-right sum of its channel's magnitudes, when the sums over every prefix of the frames are
finite; where some channel's sum over some prefix is not, the run is refused (93_implementation_defined.md U6). -/
def Obligations.HeldHighRunSumsLeftToRight : Prop :=
  ∀ (s : State) (frames : List Frame) (ms : List (List NUM)) (rest : List HostMove),
    s.incoming = frames.map (fun fr => .command (encode (.frame fr))) ++ rest →
    s.dec.clockLevel = true → s.dec.avg.length = s.dec.cfg.channels.length →
    List.Forall₂ (fun fr m => FrameAdmitted s fr ∧ FrameReads s fr m ∧ Level s m true) frames ms →
    ((∀ (c k : Nat) (a : NUM), s.dec.avg[c]? = some a → 1 ≤ k → k ≤ frames.length →
        (sumLeft (ms.take k) c a).isFinite = true) →
      ∃ t : State, Host.Core.run Sys2Proof.core frames.length s = .next t ∧ t.incoming = rest ∧ t.enc = s.enc ∧
        t.dec.clockLevel = true ∧ t.dec.collected = s.dec.collected + frames.length ∧
        t.dec.avg.length = s.dec.cfg.channels.length ∧
        ∀ (c : Nat) (a : NUM), s.dec.avg[c]? = some a → t.dec.avg[c]? = some (sumLeft ms c a)) ∧
    ((∃ (c k : Nat) (a : NUM), s.dec.avg[c]? = some a ∧ 1 ≤ k ∧ k ≤ frames.length ∧
        (sumLeft (ms.take k) c a).isFinite = false) →
      Host.Core.run Sys2Proof.core frames.length s = .refused .resultNotFinite)

/-- 10_state.md R31: between a falling edge and the next rising edge the stale sums and count are never read: with the
clock low, what a FRAME answers and emits, and the next level, do not depend on them, and a rising edge erases them. -/
def Obligations.StaleSumsAreNeverRead : Prop :=
  ∀ (s t : State) (fr : Frame) (avg : List NUM) (collected : Nat), s.dec.clockLevel = false →
    exec (.frame fr) s = .next t →
    ∃ t', exec (.frame fr) { s with dec := { s.dec with avg := avg, collected := collected } } = .next t' ∧
      t'.transcript = t.transcript ∧ t'.dec.clockLevel = t.dec.clockLevel ∧ (t.dec.clockLevel = true → t' = t)

/-- 41_decoder.md R79 (b), (c) in exact arithmetic: a data channel reads true exactly when its mean is nearer to the
clock channel's mean than to the reference's, whatever the sign of `d`. -/
def Obligations.BitIsTheNearerLevelInExactArithmetic : Prop :=
  ∀ (n high low sum : Rat), 0 < n → high ≠ low →
    (dataBit .exact (.fin n) (.fin low) (NUM.sub .exact (.fin high) (.fin low)) (.fin sum) = true ↔
      |sum / n - high| < |sum / n - low|)

/-- 41_decoder.md R81, reachability, in exact arithmetic: when every held-high frame has `m[0] - m[1] > thr` and
`thr >= 0`, the calibration of the window is not degenerate. -/
def Obligations.NoDegenerateWindowInExactArithmetic : Prop :=
  ∀ (thr : Rat) (window : List (Rat × Rat)) (data : List NUM), 0 ≤ thr → window ≠ [] →
    (∀ m ∈ window, clockLevelOf .exact (.fin m.1) (.fin m.2) (.fin thr) = true) →
    symbolEvent .exact (NUM.ofNat window.length)
      (window.foldl (fun sum m => NUM.add .exact sum (.fin m.1)) (.fin 0))
      (window.foldl (fun sum m => NUM.add .exact sum (.fin m.2)) (.fin 0)) data ≠ .undecodable

/-! ## ENC -/

/-- 42_encoder.md R86, with R85 and R87: the two checks of ECFG in order; past them a fresh instance, with no range and
no overlap check. -/
def Obligations.EcfgChecksThenStartsAFreshEncoder : Prop :=
  ∀ (p : EncConfig) (s : State),
    (Instr.ecfg p).operandsFinite Config.build = true → (Instr.ecfg p).payloadOk Config.build = true →
    (p.channels.length < 2 →
      exec (.ecfg p) s = .next (Answered s (errorReply .configError (some .tooFewChannels)))) ∧
    (2 ≤ p.channels.length → ¬ CentersIncrease p.channels →
      exec (.ecfg p) s = .next (Answered s (errorReply .configError (some .nonMonotonic)))) ∧
    (2 ≤ p.channels.length → CentersIncrease p.channels →
      exec (.ecfg p) s = .next
        { s with
          enc := { cfg := p, valid := true, t0 := none, stop := none }
          transcript := s.transcript ++ [okReply [] []] })

/-- 60_exceptions.md R100: FRAME, DETACH and ENCODE without their instance are answered NOT_CONFIGURED and do nothing;
BIN, DCFG and ECFG are never so answered. -/
def Obligations.NotConfiguredExactlyWithoutAnInstance : Prop :=
  (∀ (s : State) (fr : Frame), s.dec.valid = false → (∀ x ∈ fr, x.isValue .binary64 = true) →
    exec (.frame fr) s = .next (Answered s (errorReply .notConfigured none))) ∧
  (∀ s : State, s.dec.valid = false → exec .detach s = .next (Answered s (errorReply .notConfigured none))) ∧
  (∀ (s : State) (symbols : List Symbol) (t0 : NUM), s.enc.valid = false → t0.isValue .binary64 = true →
    exec (.encode symbols t0) s = .next (Answered s (errorReply .notConfigured none))) ∧
  (∀ (i : Instr) (s t : State), exec i s = .next t →
    (∃ r, t.transcript = s.transcript ++ [r] ∧ r.response.status = .notConfigured) →
    (i.unit = .dec ∧ s.dec.valid = false ∧ ∀ p raw, i ≠ .dcfg p raw) ∨
      (i.unit = .enc ∧ s.enc.valid = false ∧ ∀ p, i ≠ .ecfg p))

/-- 42_encoder.md R89: one symbol of the wrong length rejects the whole ENCODE before scheduling. -/
def Obligations.WrongSymbolLengthRejectsBeforeScheduling : Prop :=
  ∀ (s : State) (symbols : List Symbol) (t0 : NUM), s.enc.valid = true → t0.isValue .binary64 = true →
    ¬ SymbolsFit s.enc.cfg symbols →
    exec (.encode symbols t0) s = .next (Answered s (errorReply .configError (some .symbolLength)))

/-- 42_encoder.md R90 to R94: the timeline of every channel, and the two times ENCODE writes. That the command completes
also where a timestamp, or the slot length, overflows binary64, with what the IEEE 754 operations give, is the model's
reading (log 4). -/
def Obligations.EncodeSchedulesEveryChannel : Prop :=
  ∀ (s : State) (symbols : List Symbol) (t0 : NUM), s.enc.valid = true → t0.isValue .binary64 = true →
    2 ≤ s.enc.cfg.channels.length → SymbolsFit s.enc.cfg symbols →
    ∃ tl : List Setpoint,
      exec (.encode symbols t0) s = .next
        { s with
          enc := { s.enc with t0 := some t0, stop := some (stopAt s.enc.cfg t0 symbols.length) }
          transcript := s.transcript ++ [okReply [] tl] } ∧
      (∀ q ∈ tl, q.c < s.enc.cfg.channels.length) ∧
      channelTimeline tl 0 =
        (List.range symbols.length).flatMap (fun i =>
          [(riseAt s.enc.cfg t0 i, s.enc.cfg.encodeGainHigh), (fallAt s.enc.cfg t0 i, s.enc.cfg.encodeGainLow)]) ++
          [(stopAt s.enc.cfg t0 symbols.length, .fin 0)] ∧
      channelTimeline tl 1 =
        [(t0, s.enc.cfg.encodeGainLow), (stopAt s.enc.cfg t0 symbols.length, .fin 0)] ∧
      ∀ k, k + 2 < s.enc.cfg.channels.length →
        channelTimeline tl (k + 2) =
          (symbols.zipIdx.map fun q =>
            (startAt s.enc.cfg t0 q.2,
              if q.1.getD k false then s.enc.cfg.encodeGainHigh else s.enc.cfg.encodeGainLow)) ++
            [(stopAt s.enc.cfg t0 symbols.length, .fin 0)]

/-- 42_encoder.md R95 (b): the empty sequence is a zero-duration transmission: the reference setpoint and the shutdown,
all at `t0`, and `stop_t` is `t0` exactly, for every slot length. -/
def Obligations.EmptyEncodeStopsAtItsStart : Prop :=
  ∀ (s : State) (t0 : NUM), s.enc.valid = true → t0.isValue .binary64 = true → 2 ≤ s.enc.cfg.channels.length →
    exec (.encode [] t0) s = .next
      { s with
        enc := { s.enc with t0 := some t0, stop := some t0 }
        transcript := s.transcript ++
          [okReply [] (⟨1, t0, s.enc.cfg.encodeGainLow⟩ ::
            (List.range s.enc.cfg.channels.length).map fun c => ⟨c, t0, .fin 0⟩)] }

/-- 42_encoder.md R95 (d): an ENCODE of `N` symbols writes `C + 1 + N * C` setpoints. -/
def Obligations.SetpointCount : Prop :=
  ∀ (f : NumFormat) (p : EncConfig) (symbols : List Symbol) (t0 : NUM), SymbolsFit p symbols →
    (encodeCalls f p symbols t0).length = p.channels.length + 1 + symbols.length * p.channels.length

/-- 42_encoder.md R95 (a) in exact arithmetic: the chain of timestamps is strict, and each channel's setpoints are
strictly increasing in time when there is a symbol. -/
def Obligations.TimelineIsStrictlyOrderedInExactArithmetic : Prop :=
  ∀ (p : EncConfig) (dur pause t0 : Rat) (symbols : List Symbol), p.symbolDuration = .fin dur →
    p.symbolPause = .fin pause → 0 < dur + pause → SymbolsFit p symbols →
    (∀ i, NUM.lt (slotStart .exact p (.fin t0) i) (riseTime .exact p (.fin t0) i) = true ∧
      NUM.lt (riseTime .exact p (.fin t0) i) (fallTime .exact p (.fin t0) i) = true ∧
      NUM.lt (fallTime .exact p (.fin t0) i) (slotStart .exact p (.fin t0) (i + 1)) = true) ∧
    (symbols ≠ [] → ∀ c,
      List.Pairwise (fun a b => NUM.lt a.1 b.1 = true)
        (channelTimeline (encodeCalls .exact p symbols (.fin t0)) c))

/-- 20_memory.md R43 with 42_encoder.md R91 to R94, in exact arithmetic: played as a step function, the timeline gives
each data channel the level of its bit through the whole slot, the clock channel the high level from a quarter to three
quarters of each slot and the low level from there to the next pulse or to `stop_t`, the reference channel the low level
from `t0` to `stop_t`, and every channel 0 from `stop_t` on. -/
def Obligations.TimelinePlaysTheSymbolsInExactArithmetic : Prop :=
  ∀ (c : Config) (p : EncConfig) (dur pause t0 x : Rat) (symbols : List Symbol), p.symbolDuration = .fin dur →
    p.symbolPause = .fin pause → 0 < dur + pause → 2 ≤ p.channels.length → SymbolsFit p symbols →
    (∀ (i k : Nat) (sym : Symbol) (b : Bool), symbols[i]? = some sym → sym[k]? = some b →
      t0 + i * (dur + pause) ≤ x → x < t0 + (i + 1) * (dur + pause) →
      gainAt c (encodeCalls .exact p symbols (.fin t0)) (k + 2) (.fin x) =
        if b then p.encodeGainHigh else p.encodeGainLow) ∧
    (∀ i : Nat, i < symbols.length →
      t0 + i * (dur + pause) + 1 / 4 * (dur + pause) ≤ x → x < t0 + i * (dur + pause) + 3 / 4 * (dur + pause) →
      gainAt c (encodeCalls .exact p symbols (.fin t0)) 0 (.fin x) = p.encodeGainHigh) ∧
    (∀ i : Nat, i < symbols.length →
      t0 + i * (dur + pause) + 3 / 4 * (dur + pause) ≤ x →
      x < t0 + (i + 1) * (dur + pause) + 1 / 4 * (dur + pause) → x < t0 + symbols.length * (dur + pause) →
      gainAt c (encodeCalls .exact p symbols (.fin t0)) 0 (.fin x) = p.encodeGainLow) ∧
    (t0 ≤ x → x < t0 + symbols.length * (dur + pause) →
      gainAt c (encodeCalls .exact p symbols (.fin t0)) 1 (.fin x) = p.encodeGainLow) ∧
    (∀ ch, ch < p.channels.length → t0 + symbols.length * (dur + pause) ≤ x →
      gainAt c (encodeCalls .exact p symbols (.fin t0)) ch (.fin x) = .fin 0)

/-- 10_state.md R29 and 42_encoder.md R95 (c): after a successful ENCODE the encoder is TRANSMITTING exactly from `t0` up
to `stop_t`, and never when there was no symbol. -/
def Obligations.TransmittingBetweenStartAndStop : Prop :=
  ∀ (s t : State) (symbols : List Symbol) (t0 now : NUM), s.enc.valid = true → SymbolsFit s.enc.cfg symbols →
    exec (.encode symbols t0) s = .next t →
    (encState t.enc now = .transmitting ↔
      NUM.ge now t0 = true ∧ NUM.lt now (stopAt s.enc.cfg t0 symbols.length) = true) ∧
    (symbols = [] → encState t.enc now = .idle)

/-- 30_encoding.md R60: in the word form bit `k` is element `k` of the symbol, channel `k + 2`. -/
def Obligations.SymbolWordBits : Prop :=
  ∀ (n : Nat) (bits : Symbol) (k : Nat), k < n → (symbolWord n bits).getLsbD k = bits.getD k false

/-- 30_encoding.md R65 (b): a channel frame has `B/2` elements, the value of each channel at that channel's bin, and the
other value everywhere else. -/
def Obligations.ChannelFramePutsEachValueAtItsBin : Prop :=
  ∀ (f : NumFormat) (p : DecConfig) (mags : List NUM) (other : NUM), mags.length = p.channels.length →
    List.Pairwise (· ≠ ·) (p.channels.map (channelBin f p)) →
    (∀ ch ∈ p.channels, 0 ≤ channelBin f p ch ∧ channelBin f p ch < ((p.transformBlockSize / 2 : Nat) : Int)) →
    (Asm.channelMagsFrame f p mags other).length = p.transformBlockSize / 2 ∧
    (∀ (c : Nat) (ch : Channel) (x : NUM), p.channels[c]? = some ch → mags[c]? = some x →
      magRead (Asm.channelMagsFrame f p mags other) (channelBin f p ch) = some x) ∧
    ∀ k : Nat, k < p.transformBlockSize / 2 → (∀ ch ∈ p.channels, channelBin f p ch ≠ (k : Int)) →
      magRead (Asm.channelMagsFrame f p mags other) (k : Int) = some other

/-! ## The whole machine -/

/-- 60_exceptions.md R104: a command that ends in an error leaves every register as it was, emits no event and writes no
setpoint; and every command that ends gives exactly one response (30_encoding.md R49). -/
def Obligations.RejectionsChangeNothing : Prop :=
  ∀ (i : Instr) (s t : State), exec i s = .next t →
    ∃ r, t.transcript = s.transcript ++ [r] ∧ t.incoming = s.incoming ∧
      (r.response.status ≠ .ok →
        t.dec = s.dec ∧ t.enc = s.enc ∧ r.events = [] ∧ r.setpoints = [] ∧ r.response.bin = none)

/-- 10_state.md R34, the writes: each command's frame, register by register. -/
def Obligations.CommandsWriteOnlyTheirRegisters : Prop :=
  ∀ (i : Instr) (s t : State), exec i s = .next t →
    (i.unit ≠ .dec → t.dec = s.dec) ∧ (i.unit ≠ .enc → t.enc = s.enc) ∧
    (∀ fr, i = .frame fr →
      t.dec.cfg = s.dec.cfg ∧ t.dec.valid = s.dec.valid ∧ t.dec.attached = s.dec.attached ∧
        t.dec.rawEn = s.dec.rawEn) ∧
    (i = .detach → t.dec = { s.dec with attached := t.dec.attached }) ∧
    (∀ symbols t0, i = .encode symbols t0 → t.enc.cfg = s.enc.cfg ∧ t.enc.valid = s.enc.valid)

/-- 30_encoding.md R49, R59, R61: events come from FRAME alone, setpoints from ENCODE alone, and a bin from BIN alone. -/
def Obligations.EachPortHasOneSource : Prop :=
  ∀ (i : Instr) (s t : State), exec i s = .next t →
    ∃ r, t.transcript = s.transcript ++ [r] ∧
      (r.events ≠ [] → ∃ fr, i = .frame fr) ∧ (r.setpoints ≠ [] → ∃ symbols t0, i = .encode symbols t0) ∧
      (r.response.bin.isSome = true ↔ ∃ freq sr b, i = .bin freq sr b)

/-- 60_exceptions.md R107, 30_encoding.md R49: in what the CORE sends, in time order, a command's one response stands
last, after its events and setpoints; a FRAME sends nothing but events before it, and another command no event. That
setpoints, too, stand before the response is the model's reading (log 8). -/
def Obligations.EventsPrecedeTheResponse : Prop :=
  ∀ (i : Instr) (s t : State), exec i s = .next t →
    ∃ (before : List Output) (response : Response), t.outputs = s.outputs ++ before ++ [.response response] ∧
      (∀ r, .response r ∉ before) ∧
      ((∃ fr, i = .frame fr) → ∀ o ∈ before, ∃ e, o = .event e) ∧
      ((∀ fr, i ≠ .frame fr) → ∀ e, .event e ∉ before)

/-- 20_memory.md R46 (c): the order of a DEC command and an ENC command is unobservable: the other order gives the same
registers and the same two replies. -/
def Obligations.UnitsAreIndependent : Prop :=
  ∀ (i j : Instr) (s a b : State), i.unit = .dec → j.unit = .enc → exec i s = .next a → exec j a = .next b →
    ∃ a' b' ri rj, exec j s = .next a' ∧ exec i a' = .next b' ∧ b'.dec = b.dec ∧ b'.enc = b.enc ∧
      b.transcript = s.transcript ++ [ri, rj] ∧ b'.transcript = s.transcript ++ [rj, ri]

/-- 10_state.md R33 and 70_reset_and_hazards.md R114: the values the spec gives for reset, and the reset input, which
puts the registers there from every state and leaves the setpoints already written. That it drops no move already queued
by the host (`t.incoming = rest`) is the model's reading, not the spec's (log 7). -/
def Obligations.ResetUnconfiguresBothUnits : Prop :=
  Unconfigured State.reset ∧
  ∀ (s : State) (rest : List HostMove), s.incoming = .reset :: rest →
    ∃ t, step s = .next t ∧ Unconfigured t ∧ t.timelinePort = s.timelinePort ∧ t.incoming = rest

/-- The invariant of Safety.lean holds right after reset. -/
def Obligations.InvariantHoldsAtReset : Prop := State.reset.Inv

/-- 10_state.md R30, 41_decoder.md R72, R73, 42_encoder.md R86, R87: every step keeps the invariant. -/
def Obligations.StepKeepsTheInvariant : Prop :=
  ∀ s t : State, s.Inv → step s = .next t → t.Inv

/-- 20_memory.md R37, R42: "no admitted FRAME ever calls `MagRead` outside the range", and no other access is out of
range: under the invariant no step faults. -/
def Obligations.NoStepFaultsUnderTheInvariant : Prop :=
  ∀ (s : State) (f : Fault), s.Inv → step s ≠ .fault f
end

