-- ==== Sys2Proof/Laws/State.lean ====
section
/-! SUPPORT. The small lemmas of the state's updates: one per field per update, each true by unfolding once. -/

namespace Sys2Proof.Machine

section Respond
variable (r : Reply) (s : State)
@[simp] theorem respond_dec : (s.respond r).dec = s.dec := rfl
@[simp] theorem respond_enc : (s.respond r).enc = s.enc := rfl
@[simp] theorem respond_incoming : (s.respond r).incoming = s.incoming := rfl
@[simp] theorem respond_transcript : (s.respond r).transcript = s.transcript ++ [r] := rfl
@[simp] theorem respond_outputs : (s.respond r).outputs = s.outputs ++ r.outputs := by
  simp [State.outputs]
@[simp] theorem assertReset_outputs : s.assertReset.outputs = s.outputs := rfl
@[simp] theorem assertReset_dec : s.assertReset.dec = Dec.reset := rfl
@[simp] theorem assertReset_enc : s.assertReset.enc = Enc.reset := rfl
@[simp] theorem assertReset_incoming : s.assertReset.incoming = s.incoming := rfl
@[simp] theorem assertReset_transcript : s.assertReset.transcript = s.transcript := rfl
end Respond

section Fresh
variable (p : DecConfig) (raw : Bool) (e : EncConfig)
@[simp] theorem fresh_cfg : (Dec.fresh p raw).cfg = p := rfl
@[simp] theorem fresh_valid : (Dec.fresh p raw).valid = true := rfl
@[simp] theorem fresh_attached : (Dec.fresh p raw).attached = true := rfl
@[simp] theorem fresh_rawEn : (Dec.fresh p raw).rawEn = raw := rfl
@[simp] theorem fresh_clockLevel : (Dec.fresh p raw).clockLevel = false := rfl
@[simp] theorem fresh_avg : (Dec.fresh p raw).avg = List.replicate p.channels.length .zero := rfl
@[simp] theorem fresh_collected : (Dec.fresh p raw).collected = 0 := rfl
@[simp] theorem enc_fresh_cfg : (Enc.fresh e).cfg = e := rfl
@[simp] theorem enc_fresh_valid : (Enc.fresh e).valid = true := rfl
@[simp] theorem enc_fresh_t0 : (Enc.fresh e).t0 = none := rfl
@[simp] theorem enc_fresh_stop : (Enc.fresh e).stop = none := rfl
end Fresh

section Cases
variable (f : NumFormat) (d : Dec) (m : List NUM)
@[simp] theorem risingEdge_cfg : d.risingEdge.cfg = d.cfg := rfl
@[simp] theorem risingEdge_valid : d.risingEdge.valid = d.valid := rfl
@[simp] theorem risingEdge_attached : d.risingEdge.attached = d.attached := rfl
@[simp] theorem risingEdge_rawEn : d.risingEdge.rawEn = d.rawEn := rfl
@[simp] theorem risingEdge_clockLevel : d.risingEdge.clockLevel = true := rfl
@[simp] theorem risingEdge_avg : d.risingEdge.avg = List.replicate d.cfg.channels.length .zero := rfl
@[simp] theorem risingEdge_collected : d.risingEdge.collected = 0 := rfl
@[simp] theorem heldHigh_cfg : (d.heldHigh f m).cfg = d.cfg := rfl
@[simp] theorem heldHigh_valid : (d.heldHigh f m).valid = d.valid := rfl
@[simp] theorem heldHigh_attached : (d.heldHigh f m).attached = d.attached := rfl
@[simp] theorem heldHigh_rawEn : (d.heldHigh f m).rawEn = d.rawEn := rfl
@[simp] theorem heldHigh_clockLevel : (d.heldHigh f m).clockLevel = true := rfl
@[simp] theorem heldHigh_avg : (d.heldHigh f m).avg = d.sums f m := rfl
@[simp] theorem heldHigh_collected : (d.heldHigh f m).collected = d.collected + 1 := rfl
@[simp] theorem lowered_cfg : d.lowered.cfg = d.cfg := rfl
@[simp] theorem lowered_valid : d.lowered.valid = d.valid := rfl
@[simp] theorem lowered_attached : d.lowered.attached = d.attached := rfl
@[simp] theorem lowered_rawEn : d.lowered.rawEn = d.rawEn := rfl
@[simp] theorem lowered_clockLevel : d.lowered.clockLevel = false := rfl
@[simp] theorem lowered_avg : d.lowered.avg = d.avg := rfl
@[simp] theorem lowered_collected : d.lowered.collected = d.collected := rfl
end Cases

@[simp] theorem build_numFormat : Config.build.numFormat = .binary64 := rfl

end Sys2Proof.Machine
end

