-- ==== Sys2Proof/Laws/Commands.lean ====
section
/-! SUPPORT. Inversion lemmas: what a command did when it answers a next state. Proofs about `exec` cite these and do
not unfold the commands again. -/

namespace Sys2Proof.Machine

variable {c : Config} {s t : State}

@[simp] theorem raise_eq (st : Status) (ca : Option Cause) (s : State) :
    raise st ca s = .next (s.respond (rejection st ca)) := rfl

@[simp] theorem complete_eq (ev : List Event) (sp : List Setpoint) (s : State) :
    complete ev sp s = .next (s.respond ⟨⟨.ok, none, none⟩, ev, sp⟩) := rfl

/-- A command past its preconditions is its meaning. -/
theorem guarded_eq {i : Instr} {m : Result} (hf : i.operandsFinite c = true) (hp : i.payloadOk c = true) :
    guarded c i m = m := by simp [guarded, hf, hp]

/-- A command answers a next state only past its preconditions. -/
theorem guarded_next {i : Instr} {m : Result} (h : guarded c i m = .next t) :
    i.operandsFinite c = true ∧ i.payloadOk c = true ∧ m = .next t := by
  unfold guarded at h
  split at h
  · split at h
    · exact ⟨‹_›, ‹_›, h⟩
    · cases h
  · cases h

/-- A command faults only past its preconditions. -/
theorem guarded_fault {i : Instr} {m : Result} {f : Fault} (h : guarded c i m = .fault f) :
    i.operandsFinite c = true ∧ i.payloadOk c = true ∧ m = .fault f := by
  unfold guarded at h
  split at h
  · split at h
    · exact ⟨‹_›, ‹_›, h⟩
    · cases h
  · cases h

theorem binCommand_next {f sr : NUM} {b : Nat} (h : binCommand c f sr b s = .next t) :
    t = s.respond ⟨⟨.ok, none, some (bin c.numFormat f sr b)⟩, [], []⟩ := by
  obtain ⟨-, -, h⟩ := guarded_next h
  cases h; rfl

/-- DCFG: rejected with the cause of its checks, or a fresh decoder. -/
theorem dcfgCommand_next {p : DecConfig} {raw : Bool} (h : dcfgCommand c p raw s = .next t) :
    p.isFinite c.numFormat = true ∧ p.wellFormed c = true ∧
      ((∃ ca, checkDcfg c.numFormat p = some ca ∧ t = s.respond (rejection .configError (some ca))) ∨
        (checkDcfg c.numFormat p = none ∧
          t = State.respond ⟨⟨.ok, none, none⟩, [], []⟩ { s with dec := Dec.fresh p raw })) := by
  obtain ⟨hf, hp, h⟩ := guarded_next h
  refine ⟨hf, hp, ?_⟩
  split at h
  · cases h; exact .inl ⟨_, ‹_›, rfl⟩
  · cases h; exact .inr ⟨‹_›, rfl⟩

/-- ECFG: rejected with the cause of its checks, or a fresh encoder. -/
theorem ecfgCommand_next {p : EncConfig} (h : ecfgCommand c p s = .next t) :
    p.isFinite c.numFormat = true ∧ p.wellFormed c = true ∧
      ((∃ ca, checkChannelList p.channels = some ca ∧ t = s.respond (rejection .configError (some ca))) ∨
        (checkChannelList p.channels = none ∧
          t = State.respond ⟨⟨.ok, none, none⟩, [], []⟩ { s with enc := Enc.fresh p })) := by
  obtain ⟨hf, hp, h⟩ := guarded_next h
  refine ⟨hf, hp, ?_⟩
  split at h
  · cases h; exact .inl ⟨_, ‹_›, rfl⟩
  · cases h; exact .inr ⟨‹_›, rfl⟩

/-- DETACH: always answers. -/
theorem execDetach_cases (s : State) :
    (s.dec.valid = false ∧ execDetach s = .next (s.respond (rejection .notConfigured none))) ∨
      (s.dec.valid = true ∧ execDetach s =
        .next (State.respond ⟨⟨.ok, none, none⟩, [], []⟩ { s with dec := { s.dec with attached := false } })) := by
  cases hv : s.dec.valid <;> simp [execDetach, hv]

/-- The four cases of an admitted frame that answer a next state. -/
theorem frameCase_next {fr : Frame} {m : List NUM} {e : Edge} (h : frameCase c fr m s e = .next t) :
    (e = .rising ∧
      t = State.respond ⟨⟨.ok, none, none⟩, rawEvents s.dec fr, []⟩ { s with dec := s.dec.risingEdge }) ∨
    (e = .heldLow ∧
      t = State.respond ⟨⟨.ok, none, none⟩, rawEvents s.dec fr, []⟩ { s with dec := s.dec.lowered }) ∨
    (e = .heldHigh ∧ s.dec.avg.length = s.dec.cfg.channels.length ∧
      (s.dec.sums c.numFormat m).all NUM.isFinite = true ∧
      t = State.respond ⟨⟨.ok, none, none⟩, rawEvents s.dec fr, []⟩
        { s with dec := s.dec.heldHigh c.numFormat m }) ∨
    (e = .falling ∧ ∃ ev, s.dec.fallingEvents c.numFormat = some ev ∧
      t = State.respond ⟨⟨.ok, none, none⟩, rawEvents s.dec fr ++ ev, []⟩ { s with dec := s.dec.lowered }) := by
  cases e with
  | rising => cases h; exact .inl ⟨rfl, rfl⟩
  | heldLow => cases h; exact .inr (.inl ⟨rfl, rfl⟩)
  | heldHigh =>
    simp only [frameCase] at h
    split at h
    · split at h
      · cases h; exact .inr (.inr (.inl ⟨rfl, ‹_›, ‹_›, rfl⟩))
      · cases h
    · cases h
  | falling =>
    simp only [frameCase] at h
    split at h
    · cases h; exact .inr (.inr (.inr ⟨rfl, _, ‹_›, rfl⟩))
    · cases h

/-- FRAME: one of the three admission tests, or an admitted frame with its magnitudes read. -/
theorem frameCommand_next {fr : Frame} (h : frameCommand c fr s = .next t) :
    fr.all (NUM.isValue c.numFormat) = true ∧
    ((s.dec.valid = false ∧ t = s.respond (rejection .notConfigured none)) ∨
     (s.dec.valid = true ∧ s.dec.attached = false ∧ t = s.respond (rejection .detached none)) ∨
     (s.dec.valid = true ∧ s.dec.attached = true ∧ fr.length ≠ frameLength s.dec.cfg ∧
        t = s.respond (rejection .frameFault (some .length))) ∨
     (s.dec.valid = true ∧ s.dec.attached = true ∧ fr.length = frameLength s.dec.cfg ∧
        ∃ clock ref rest,
          channelMags c.numFormat s.dec.cfg fr s.dec.cfg.channels = some (clock :: ref :: rest) ∧
          frameCase c fr (clock :: ref :: rest) s
            (edgeOf s.dec.clockLevel (clockLevelOf c.numFormat clock ref s.dec.cfg.decodeThreshold)) = .next t)) := by
  obtain ⟨hf, -, h⟩ := guarded_next h
  refine ⟨hf, ?_⟩
  cases hv : s.dec.valid with
  | false => simp [hv] at h; exact .inl ⟨rfl, h.symm⟩
  | true =>
    cases ha : s.dec.attached with
    | false => simp [hv, ha] at h; exact .inr (.inl ⟨rfl, rfl, h.symm⟩)
    | true =>
      by_cases hl : fr.length = frameLength s.dec.cfg
      · refine .inr (.inr (.inr ⟨rfl, rfl, hl, ?_⟩))
        simp [hv, ha, hl, admittedFrame] at h
        split at h
        · cases h
        · cases h
        · cases h
        · exact ⟨_, _, _, ‹_›, h⟩
      · simp [hv, ha, hl] at h
        exact .inr (.inr (.inl ⟨rfl, rfl, hl, h.symm⟩))

/-- ENCODE: without an instance, with a wrong symbol length, or a timeline handed over. -/
theorem encodeCommand_next {symbols : List Symbol} {t0 : NUM} (h : encodeCommand c symbols t0 s = .next t) :
    t0.isValue c.numFormat = true ∧
    ((s.enc.valid = false ∧ t = s.respond (rejection .notConfigured none)) ∨
     (s.enc.valid = true ∧ symbolLengthWrong s.enc.cfg symbols = true ∧
        t = s.respond (rejection .configError (some .symbolLength))) ∨
     (s.enc.valid = true ∧ symbolLengthWrong s.enc.cfg symbols = false ∧ ∃ timeline,
        tlWriteAll s.enc.cfg.channels.length [] (encodeCalls c.numFormat s.enc.cfg symbols t0) = some timeline ∧
        t = State.respond ⟨⟨.ok, none, none⟩, [], timeline⟩
          { s with enc := { s.enc with t0 := some t0, stop := some (stopTime c.numFormat s.enc.cfg t0 symbols.length) } })) := by
  obtain ⟨hf, -, h⟩ := guarded_next h
  refine ⟨hf, ?_⟩
  cases hv : s.enc.valid with
  | false => simp [hv] at h; exact .inl ⟨rfl, h.symm⟩
  | true =>
    cases hw : symbolLengthWrong s.enc.cfg symbols with
    | true => simp [hv, hw] at h; exact .inr (.inl ⟨rfl, rfl, h.symm⟩)
    | false =>
      simp only [hv, hw, schedule] at h
      refine .inr (.inr ⟨rfl, rfl, ?_⟩)
      simp at h
      split at h
      · cases h
      · cases h; exact ⟨_, ‹_›, by simp [hv]⟩

end Sys2Proof.Machine
end

