-- ==== Sys2Proof/Laws/Num.lean ====
section
/-! SUPPORT. The laws of NUM: comparisons and operations on finite values, and what one rounding does. -/

namespace Sys2Proof

/-! ## Finite operands -/

section Finite
variable (f : NumFormat) (a b : Rat)
@[simp] theorem lt_fin : NUM.lt (.fin a) (.fin b) = decide (a < b) := rfl
@[simp] theorem gt_fin : NUM.gt (.fin a) (.fin b) = decide (b < a) := rfl
@[simp] theorem eqv_fin : NUM.eqv (.fin a) (.fin b) = decide (a = b) := rfl
@[simp] theorem add_fin : NUM.add f (.fin a) (.fin b) = f.round (a + b) := rfl
@[simp] theorem mul_fin : NUM.mul f (.fin a) (.fin b) = f.round (a * b) := rfl
@[simp] theorem isFinite_fin : (NUM.fin a).isFinite = true := rfl
@[simp] theorem round_exact : NumFormat.exact.round a = .fin a := rfl
@[simp] theorem ofNat_eq (n : Nat) : NUM.ofNat n = .fin n := rfl

@[simp] theorem sub_fin : NUM.sub f (.fin a) (.fin b) = f.round (a - b) := by
  simp [NUM.sub, NUM.neg, sub_eq_add_neg]

@[simp] theorem ge_fin : NUM.ge (.fin a) (.fin b) = decide (b ≤ a) := by
  have h : b < a ∨ a = b ↔ b ≤ a := by rw [le_iff_lt_or_eq, eq_comm (a := b)]
  simp only [NUM.ge, lt_fin, eqv_fin, ← Bool.decide_or, h]

theorem div_fin (hb : b ≠ 0) : NUM.div f (.fin a) (.fin b) = f.round (a / b) := by simp [NUM.div, hb]
end Finite

/-- A quotient by zero is no finite value. -/
@[simp] theorem divZero_ne_fin (f : NumFormat) (a q : Rat) : NUM.divZero f a ≠ .fin q := by
  cases f <;> simp only [NUM.divZero] <;> (try split) <;> simp

theorem isFinite_iff {x : NUM} : x.isFinite = true ↔ ∃ q, x = .fin q := by
  cases x <;> simp [NUM.isFinite]

/-- A value of NUM is finite and its own rounding. -/
theorem isValue_iff {f : NumFormat} {x : NUM} : x.isValue f = true ↔ ∃ q, x = .fin q ∧ f.round q = .fin q := by
  cases x <;> simp [NUM.isValue]

/-! ## Powers and exponents -/

theorem pow2_eq_zpow (e : Int) : pow2 e = (2 : Rat) ^ e := by
  cases e with
  | ofNat n => simp [pow2]
  | negSucc n => simp [pow2, Rat.mkRat_eq_div, zpow_negSucc]

theorem pow2_pos (e : Int) : 0 < pow2 e := by rw [pow2_eq_zpow]; positivity

theorem ulp64_pos (x : Rat) : 0 < ulp64 x := pow2_pos _

/-- The comparison inside `binaryExponent`. -/
theorem zpow_le_iff (e : Int) (p q : Nat) (hq : 0 < q) :
    (if 0 ≤ e then 2 ^ e.toNat * q ≤ p else q ≤ p * 2 ^ (-e).toNat) ↔ (2 : Rat) ^ e ≤ (p : Rat) / q := by
  have hq' : (0 : Rat) < q := by exact_mod_cast hq
  rw [le_div_iff₀ hq']
  split
  · rename_i h
    obtain ⟨n, rfl⟩ := Int.eq_ofNat_of_zero_le h
    simp only [Int.toNat_natCast, zpow_natCast]
    exact_mod_cast Iff.rfl
  · rename_i h
    obtain ⟨n, hn⟩ := Int.eq_ofNat_of_zero_le (show 0 ≤ -e by omega)
    obtain rfl : e = -(n : Int) := by omega
    simp only [neg_neg, Int.toNat_natCast, zpow_neg, zpow_natCast]
    rw [inv_mul_le_iff₀ (by positivity), mul_comm]
    exact_mod_cast Iff.rfl

/-- `binaryExponent` is the exponent: `2 ^ e ≤ |x| < 2 ^ (e + 1)`. -/
theorem binaryExponent_spec {x : Rat} (hx : x ≠ 0) :
    (2 : Rat) ^ binaryExponent x ≤ |x| ∧ |x| < (2 : Rat) ^ (binaryExponent x + 1) := by
  have hp0 : x.num.natAbs ≠ 0 := by simpa using hx
  have hq0 : 0 < x.den := x.den_pos
  have habs : |x| = (x.num.natAbs : Rat) / x.den := by
    rw [Rat.abs_def, Rat.divInt_eq_div]; simp
  set p := x.num.natAbs with hp
  set q := x.den with hq
  have hqr : (0 : Rat) < q := by exact_mod_cast hq0
  have lo : ∀ n : Nat, n ≠ 0 → (2 : Rat) ^ (Nat.log2 n : Int) ≤ n ∧ (n : Rat) < (2 : Rat) ^ ((Nat.log2 n : Int) + 1) := by
    intro n hn
    refine ⟨?_, ?_⟩
    · rw [zpow_natCast]; exact_mod_cast Nat.log2_self_le hn
    · rw [show ((Nat.log2 n : Int) + 1) = ((Nat.log2 n + 1 : Nat) : Int) by push_cast; rfl, zpow_natCast]
      exact_mod_cast Nat.lt_log2_self
  obtain ⟨p1, p2⟩ := lo p hp0
  obtain ⟨q1, q2⟩ := lo q (by omega)
  have two : (2 : Rat) ≠ 0 := by norm_num
  have key : binaryExponent x =
      if (2 : Rat) ^ ((Nat.log2 p : Int) - Nat.log2 q) ≤ (p : Rat) / q
        then (Nat.log2 p : Int) - Nat.log2 q else (Nat.log2 p : Int) - Nat.log2 q - 1 := by
    simp only [binaryExponent, ← hp, ← hq, zpow_le_iff _ _ _ hq0]
  have upper : (p : Rat) / q < (2 : Rat) ^ ((Nat.log2 p : Int) - Nat.log2 q + 1) := by
    rw [div_lt_iff₀ hqr]
    calc (p : Rat) < (2 : Rat) ^ ((Nat.log2 p : Int) + 1) := p2
      _ = (2 : Rat) ^ ((Nat.log2 p : Int) - Nat.log2 q + 1) * (2 : Rat) ^ (Nat.log2 q : Int) := by
          rw [← zpow_add₀ two]; congr 1; ring
      _ ≤ _ := by gcongr
  have lower : (2 : Rat) ^ ((Nat.log2 p : Int) - Nat.log2 q - 1) ≤ (p : Rat) / q := by
    rw [le_div_iff₀ hqr]
    calc (2 : Rat) ^ ((Nat.log2 p : Int) - Nat.log2 q - 1) * q
        ≤ (2 : Rat) ^ ((Nat.log2 p : Int) - Nat.log2 q - 1) * (2 : Rat) ^ ((Nat.log2 q : Int) + 1) := by gcongr
      _ = (2 : Rat) ^ (Nat.log2 p : Int) := by rw [← zpow_add₀ two]; congr 1; ring
      _ ≤ p := p1
  rw [habs, key]
  split
  · exact ⟨‹_›, upper⟩
  · exact ⟨lower, by simpa using lt_of_not_ge ‹_›⟩

/-! ## Rounding -/

/-- `roundTiesEven r` is the floor or the next integer, on the nearer side. -/
theorem roundTiesEven_cases (r : Rat) :
    (roundTiesEven r = r.floor ∧ r - r.floor ≤ 1 / 2) ∨ (roundTiesEven r = r.floor + 1 ∧ 1 / 2 ≤ r - r.floor) := by
  unfold roundTiesEven
  dsimp only
  split
  · exact .inl ⟨rfl, le_of_lt ‹_›⟩
  · split
    · exact .inr ⟨rfl, le_of_lt ‹_›⟩
    · split
      · exact .inl ⟨rfl, not_lt.mp ‹_›⟩
      · exact .inr ⟨rfl, not_lt.mp ‹_›⟩

/-- An integer is its own rounding. -/
@[simp] theorem roundTiesEven_intCast (k : Int) : roundTiesEven (k : Rat) = k := by
  unfold roundTiesEven
  simp

theorem roundTiesEven_zero : roundTiesEven 0 = 0 := by simpa using roundTiesEven_intCast 0

/-- Rounding to the nearest integer is monotone. -/
theorem roundTiesEven_mono {r s : Rat} (h : r ≤ s) : roundTiesEven r ≤ roundTiesEven s := by
  have hf : r.floor ≤ s.floor := Int.floor_le_floor h
  rcases lt_or_eq_of_le hf with hlt | heq
  · rcases roundTiesEven_cases r with ⟨a, -⟩ | ⟨a, -⟩ <;>
      rcases roundTiesEven_cases s with ⟨b, -⟩ | ⟨b, -⟩ <;> omega
  · unfold roundTiesEven
    rw [heq]
    dsimp only
    split_ifs <;> first | omega | (exfalso; linarith)

theorem roundTiesEven_nonneg {r : Rat} (h : 0 ≤ r) : 0 ≤ roundTiesEven r := by
  simpa [roundTiesEven_zero] using roundTiesEven_mono h

/-- What a finite rounding is. -/
theorem round64_fin {x y : Rat} (h : round64 x = .fin y) :
    y = (roundTiesEven (x / ulp64 x) : Rat) * ulp64 x ∧ y < overflow64 ∧ -overflow64 < y := by
  unfold round64 at h
  dsimp only at h
  split at h
  · cases h; exact ⟨rfl, ‹_›⟩
  · cases h

/-- Rounding keeps a value at or above 0 there. -/
theorem round64_nonneg {x y : Rat} (hx : 0 ≤ x) (h : round64 x = .fin y) : 0 ≤ y := by
  obtain ⟨rfl, -, -⟩ := round64_fin h
  have hu := ulp64_pos x
  have : 0 ≤ roundTiesEven (x / ulp64 x) := roundTiesEven_nonneg (by positivity)
  have : (0 : Rat) ≤ (roundTiesEven (x / ulp64 x) : Rat) := by exact_mod_cast this
  positivity

/-- What `round64` rounds to before the overflow test. -/
def gridRound (x : Rat) : Rat := (roundTiesEven (x / ulp64 x) : Rat) * ulp64 x

/-- The exponent of `ulp64`. -/
def ulpExponent (x : Rat) : Int := max (binaryExponent x - 52) (-1074)

theorem ulp64_eq (x : Rat) : ulp64 x = (2 : Rat) ^ ulpExponent x := pow2_eq_zpow _

/-- A signed power of two at or above the grid is on the grid. -/
theorem roundTiesEven_zpow (s : Int) {u e : Int} (h : u ≤ e) :
    (roundTiesEven ((s : Rat) * (2 : Rat) ^ e / (2 : Rat) ^ u) : Rat) * (2 : Rat) ^ u = (s : Rat) * (2 : Rat) ^ e := by
  obtain ⟨n, hn⟩ := Int.eq_ofNat_of_zero_le (show 0 ≤ e - u by omega)
  have key : (s : Rat) * (2 : Rat) ^ e / (2 : Rat) ^ u = ((s * 2 ^ n : Int) : Rat) := by
    rw [mul_div_assoc, ← zpow_sub₀ (by norm_num : (2 : Rat) ≠ 0), hn]; simp
  rw [key, roundTiesEven_intCast, ← key]
  field_simp

theorem gridRound_mono_of_ulp_eq {x y : Rat} (h : x ≤ y) (hu : ulpExponent x = ulpExponent y) :
    gridRound x ≤ gridRound y := by
  have hpos : (0 : Rat) < (2 : Rat) ^ ulpExponent y := by positivity
  have : roundTiesEven (x / (2 : Rat) ^ ulpExponent y) ≤ roundTiesEven (y / (2 : Rat) ^ ulpExponent y) :=
    roundTiesEven_mono (by gcongr)
  simp only [gridRound, ulp64_eq, hu]
  gcongr

/-- With a finer grid at `x` than at `y`, both signed powers of `y`'s exponent separate them. -/
theorem abs_lt_of_ulp_lt {x y : Rat} (hx : x ≠ 0) (h : ulpExponent x < ulpExponent y) :
    |x| < (2 : Rat) ^ binaryExponent y ∧ ulpExponent x ≤ binaryExponent y ∧ ulpExponent y ≤ binaryExponent y := by
  have hspec := (binaryExponent_spec hx).2
  simp only [ulpExponent] at h ⊢
  refine ⟨lt_of_lt_of_le hspec ?_, by omega, by omega⟩
  exact zpow_le_zpow_right₀ (by norm_num) (by omega)

theorem gridRound_zero : gridRound 0 = 0 := by simp [gridRound, roundTiesEven_zero]

theorem gridRound_nonneg {x : Rat} (hx : 0 ≤ x) : 0 ≤ gridRound x := by
  have hu := ulp64_pos x
  have : 0 ≤ roundTiesEven (x / ulp64 x) := roundTiesEven_nonneg (by positivity)
  have : (0 : Rat) ≤ (roundTiesEven (x / ulp64 x) : Rat) := by exact_mod_cast this
  unfold gridRound; positivity

theorem gridRound_nonpos {x : Rat} (hx : x ≤ 0) : gridRound x ≤ 0 := by
  have hu := ulp64_pos x
  have : roundTiesEven (x / ulp64 x) ≤ 0 := by
    simpa [roundTiesEven_zero] using roundTiesEven_mono (div_nonpos_of_nonpos_of_nonneg hx hu.le)
  have : (roundTiesEven (x / ulp64 x) : Rat) ≤ 0 := by exact_mod_cast this
  exact mul_nonpos_of_nonpos_of_nonneg this hu.le

/-- A value on one side of a signed power of two that is on its grid stays on that side. -/
theorem gridRound_le_zpow {x : Rat} {s e : Int} (h : ulpExponent x ≤ e) (hx : x ≤ (s : Rat) * (2 : Rat) ^ e) :
    gridRound x ≤ (s : Rat) * (2 : Rat) ^ e := by
  have hpos : (0 : Rat) < (2 : Rat) ^ ulpExponent x := by positivity
  rw [← roundTiesEven_zpow s h, gridRound, ulp64_eq]
  have : roundTiesEven (x / (2 : Rat) ^ ulpExponent x) ≤
      roundTiesEven ((s : Rat) * (2 : Rat) ^ e / (2 : Rat) ^ ulpExponent x) := roundTiesEven_mono (by gcongr)
  gcongr

theorem zpow_le_gridRound {x : Rat} {s e : Int} (h : ulpExponent x ≤ e) (hx : (s : Rat) * (2 : Rat) ^ e ≤ x) :
    (s : Rat) * (2 : Rat) ^ e ≤ gridRound x := by
  have hpos : (0 : Rat) < (2 : Rat) ^ ulpExponent x := by positivity
  rw [← roundTiesEven_zpow s h, gridRound, ulp64_eq]
  have : roundTiesEven ((s : Rat) * (2 : Rat) ^ e / (2 : Rat) ^ ulpExponent x) ≤
      roundTiesEven (x / (2 : Rat) ^ ulpExponent x) := roundTiesEven_mono (by gcongr)
  gcongr

theorem gridRound_mono {x y : Rat} (h : x ≤ y) : gridRound x ≤ gridRound y := by
  rcases eq_or_ne x 0 with rfl | hx
  · rw [gridRound_zero]; exact gridRound_nonneg h
  rcases eq_or_ne y 0 with rfl | hy
  · rw [gridRound_zero]; exact gridRound_nonpos h
  rcases lt_trichotomy (ulpExponent x) (ulpExponent y) with hu | hu | hu
  · obtain ⟨habs, hxe, hye⟩ := abs_lt_of_ulp_lt hx hu
    obtain ⟨h1, h2⟩ := abs_lt.mp habs
    have hlow := (binaryExponent_spec hy).1
    rcases le_or_gt 0 y with hy0 | hy0
    · rw [abs_of_nonneg hy0] at hlow
      have a := gridRound_le_zpow (s := 1) hxe (by simpa using h2.le)
      have b := zpow_le_gridRound (s := 1) hye (by simpa using hlow)
      exact a.trans b
    · rw [abs_of_neg hy0] at hlow
      linarith
  · exact gridRound_mono_of_ulp_eq h hu
  · obtain ⟨habs, hye, hxe⟩ := abs_lt_of_ulp_lt hy hu
    obtain ⟨h1, h2⟩ := abs_lt.mp habs
    have hlow := (binaryExponent_spec hx).1
    rcases le_or_gt 0 x with hx0 | hx0
    · rw [abs_of_nonneg hx0] at hlow
      linarith
    · rw [abs_of_neg hx0] at hlow
      have a := gridRound_le_zpow (s := -1) hxe (by push_cast; linarith)
      have b := zpow_le_gridRound (s := -1) hye (by push_cast; linarith)
      exact a.trans b

/-- Rounding is monotone where both results are finite. -/
theorem round_mono {f : NumFormat} {x y a b : Rat} (h : x ≤ y) (hx : f.round x = .fin a) (hy : f.round y = .fin b) :
    a ≤ b := by
  cases f with
  | exact => cases hx; cases hy; exact h
  | binary64 =>
    rw [(round64_fin hx).1, (round64_fin hy).1]
    exact gridRound_mono h

theorem round64_zero : round64 0 = .fin 0 := by
  have := pow2_pos 1024
  simp [round64, roundTiesEven_zero, overflow64, this]

theorem round_nonneg {f : NumFormat} {x y : Rat} (hx : 0 ≤ x) (h : f.round x = .fin y) : 0 ≤ y := by
  cases f with
  | binary64 => exact round64_nonneg hx h
  | exact => cases h; exact hx

@[simp] theorem round_zero (f : NumFormat) : f.round 0 = .fin 0 := by
  cases f with
  | binary64 => exact round64_zero
  | exact => rfl

/-- A rounding is a finite value or an infinity, never a not-a-number. -/
theorem round_ne_nan (f : NumFormat) (x : Rat) : f.round x ≠ .nan := by
  cases f with
  | binary64 => simp only [NumFormat.round, round64]; split <;> simp
  | exact => simp

/-! ## The end of the range -/

theorem greatest64_eq : greatest64 = ((2 ^ 53 - 1 : Int) : Rat) * (2 : Rat) ^ (971 : Int) := by
  rw [greatest64, pow2_eq_zpow, pow2_eq_zpow, show (1024 : Int) = 53 + 971 by norm_num,
    zpow_add₀ (by norm_num : (2 : Rat) ≠ 0)]
  generalize (2 : Rat) ^ (971 : Int) = p
  push_cast; ring

/-- A multiple of `2 ^ 971` below `2 ^ 1024` in magnitude is at most `greatest64` in magnitude. -/
theorem abs_le_greatest64_of_multiple {k : Int} (h : |(k : Rat) * (2 : Rat) ^ (971 : Int)| < overflow64) :
    |(k : Rat) * (2 : Rat) ^ (971 : Int)| ≤ greatest64 := by
  have hp : (0 : Rat) < (2 : Rat) ^ (971 : Int) := zpow_pos (by norm_num) _
  rw [overflow64, pow2_eq_zpow, show (1024 : Int) = 53 + 971 by norm_num, zpow_add₀ (by norm_num : (2 : Rat) ≠ 0),
    abs_mul, abs_of_pos hp] at h
  rw [greatest64_eq, abs_mul, abs_of_pos hp]
  generalize (2 : Rat) ^ (971 : Int) = p at *
  have hk := lt_of_mul_lt_mul_right h hp.le
  have hk' : |k| < 2 ^ 53 := by exact_mod_cast hk
  have : ((|k| : Int) : Rat) ≤ ((2 ^ 53 - 1 : Int) : Rat) := by exact_mod_cast Int.le_sub_one_of_lt hk'
  rw [← Int.cast_abs]
  gcongr

/-- No finite rounding lies beyond the greatest finite value. -/
theorem round64_abs_le {x y : Rat} (h : round64 x = .fin y) : |y| ≤ greatest64 := by
  obtain ⟨hy, hlt, hgt⟩ := round64_fin h
  rcases le_or_gt 971 (ulpExponent x) with hu | hu
  · obtain ⟨n, hn⟩ := Int.eq_ofNat_of_zero_le (show 0 ≤ ulpExponent x - 971 by omega)
    have hul : ulp64 x = (2 : Rat) ^ n * (2 : Rat) ^ (971 : Int) := by
      rw [ulp64_eq, ← zpow_natCast, ← zpow_add₀ (by norm_num : (2 : Rat) ≠ 0),
        show (n : Int) + 971 = ulpExponent x by omega]
    have key : y = ((roundTiesEven (x / ulp64 x) * 2 ^ n : Int) : Rat) * (2 : Rat) ^ (971 : Int) := by
      rw [hy, Int.cast_mul, mul_assoc, Int.cast_pow, Int.cast_ofNat, ← hul]
    have habs : |y| < overflow64 := by
      generalize overflow64 = o at *
      exact abs_lt.mpr ⟨hgt, hlt⟩
    rw [key] at habs ⊢
    exact abs_le_greatest64_of_multiple habs
  · have hx : |x| ≤ (2 : Rat) ^ (1023 : Int) := by
      by_cases h0 : x = 0
      · rw [h0, abs_zero]; exact (zpow_pos (by norm_num) _).le
      · exact (binaryExponent_spec h0).2.le.trans
          (zpow_le_zpow_right₀ (by norm_num) (by simp only [ulpExponent] at hu; omega))
    obtain ⟨h1, h2⟩ := abs_le.mp hx
    have hle : (2 : Rat) ^ (1023 : Int) ≤ greatest64 := by
      rw [greatest64_eq, show (1023 : Int) = 52 + 971 by norm_num, zpow_add₀ (by norm_num : (2 : Rat) ≠ 0)]
      gcongr
      norm_num
    have up := gridRound_le_zpow (s := 1) (show ulpExponent x ≤ 1023 by omega) (by simpa using h2)
    have low := zpow_le_gridRound (s := -1) (show ulpExponent x ≤ 1023 by omega) (by simpa using h1)
    rw [hy]
    simp only [Int.cast_one, one_mul, Int.cast_neg, neg_mul] at up low
    exact abs_le.mpr ⟨(neg_le_neg hle).trans low, up.trans hle⟩

/-- Past an overflow upwards, every greater number overflows; and the same downwards. -/
theorem round64_not_fin_of_le {x y : Rat} (hx : 0 ≤ x) (h : x ≤ y) (hi : ∀ a, round64 x ≠ .fin a) (a : Rat) :
    round64 y ≠ .fin a := by
  intro hy
  have hm := gridRound_mono h
  obtain ⟨hya, hlt, -⟩ := round64_fin hy
  have hx0 := gridRound_nonneg hx
  have hp : (0 : Rat) < overflow64 := pow2_pos _
  refine hi (gridRound x) ?_
  have hlt' : gridRound x < overflow64 := lt_of_le_of_lt hm (by rw [gridRound, ← hya]; exact hlt)
  show (if _ then _ else _) = _
  exact if_pos ⟨hlt', lt_of_lt_of_le (neg_lt_zero.mpr hp) hx0⟩

theorem round64_not_fin_of_ge {x y : Rat} (hy : y ≤ 0) (h : x ≤ y) (hi : ∀ a, round64 y ≠ .fin a) (a : Rat) :
    round64 x ≠ .fin a := by
  intro hx
  have hm := gridRound_mono h
  obtain ⟨hxa, -, hgt⟩ := round64_fin hx
  have hy0 := gridRound_nonpos hy
  have hp : (0 : Rat) < overflow64 := pow2_pos _
  refine hi (gridRound y) ?_
  have hgt' : -overflow64 < gridRound y := lt_of_lt_of_le (by rw [gridRound, ← hxa]; exact hgt) hm
  show (if _ then _ else _) = _
  exact if_pos ⟨lt_of_le_of_lt hy0 hp, hgt'⟩

end Sys2Proof

namespace Sys2Proof.Machine

/-- Where the quotient is finite, `bin` is its floor. -/
theorem bin_eq_floor {f : NumFormat} {x sr : NUM} {b : Nat} {q : Rat} (h : binQuotient f x sr b = .fin q) :
    bin f x sr b = q.floor := by simp [bin, h, NUM.floor?]

/-! What the limits of an overflowed bin give. -/

theorem binAbove_nonneg (f : NumFormat) (x sr : NUM) (b : Nat) : 0 ≤ binAbove f x sr b := by
  unfold binAbove
  omega

theorem le_binAbove {x sr : NUM} {b : Nat} (f : NumFormat) (h : inTopHalfBin x sr b = true) :
    ((b / 2 : Nat) : Int) ≤ binAbove f x sr b := by
  simp only [binAbove, h, if_true]
  omega

theorem binBelow_neg (f : NumFormat) (x sr : NUM) (b : Nat) : binBelow f x sr b < 0 := by
  unfold binBelow
  omega

/-- More thresholds lie at or below a greater number. -/
theorem stepsAt_mono (steps : List (Rat × Nat)) {x y : Rat} (h : x ≤ y) :
    stepsAt steps (.fin x) ≤ stepsAt steps (.fin y) := by
  induction steps with
  | nil => simp [stepsAt]
  | cons p rest ih =>
    simp only [stepsAt, ge_fin, decide_eq_true_eq, List.map_cons, List.sum_cons] at ih ⊢
    split_ifs <;> first | omega | (exfalso; linarith)

theorem binAbove_mono (f : NumFormat) {x y sr : Rat} {b : Nat} (h : x ≤ y) :
    binAbove f (.fin x) (.fin sr) b ≤ binAbove f (.fin y) (.fin sr) b := by
  have hs := stepsAt_mono (Config.freeBinSteps false (.fin sr) b) h
  simp only [binAbove, inTopHalfBin, decide_eq_true_eq]
  split_ifs <;> first | omega | (exfalso; linarith)

theorem binBelow_mono (f : NumFormat) {x y sr : Rat} {b : Nat} (h : x ≤ y) :
    binBelow f (.fin x) (.fin sr) b ≤ binBelow f (.fin y) (.fin sr) b := by
  have hs := stepsAt_mono (Config.freeBinSteps true (.fin sr) b) (neg_le_neg h)
  simp only [binBelow, NUM.neg]
  omega

/-- The bin size is at or above 0, or no finite value. -/
theorem binSize_nonneg {f : NumFormat} {sr z : Rat} {b : Nat} (hs : 0 < sr) (h : binSize f (.fin sr) b = .fin z) :
    0 ≤ z := by
  unfold binSize at h
  rw [ofNat_eq] at h
  by_cases h0 : (b : Rat) = 0
  · exact absurd h (by simp [NUM.div, h0])
  · rw [div_fin _ _ _ h0] at h
    exact round_nonneg (by positivity) h

/-- The finite quotients of one bin size: the size is positive, half of it and the sum are finite. -/
theorem binQuotient_fin {f : NumFormat} {x sr q : Rat} {b : Nat} (hs : 0 < sr)
    (h : binQuotient f (.fin x) (.fin sr) b = .fin q) :
    (∃ z half sum, binSize f (.fin sr) b = .fin z ∧ 0 < z ∧ f.round (z / 2) = .fin half ∧ 0 ≤ half ∧
      f.round (x + half) = .fin sum ∧ f.round (sum / z) = .fin q) := by
  unfold binQuotient at h
  dsimp only at h
  cases hz : binSize f (.fin sr) b with
  | nan => rw [hz] at h; simp [NUM.div, NUM.add] at h
  | inf n => rw [hz] at h; simp [NUM.div, NUM.add] at h
  | fin z =>
    have hz0 := binSize_nonneg hs hz
    rw [hz, div_fin _ _ (2 : Rat) (by norm_num)] at h
    by_cases h0 : z = 0
    · subst h0
      exact absurd h (by cases hv : f.round x <;> simp [NUM.div, hv])
    · cases hh : f.round (z / 2) with
      | nan => exact absurd hh (round_ne_nan _ _)
      | inf n => rw [hh] at h; simp [NUM.div, NUM.add] at h
      | fin half =>
        rw [hh, add_fin] at h
        cases hv : f.round (x + half) with
        | nan => exact absurd hv (round_ne_nan _ _)
        | inf n => rw [hv] at h; simp [NUM.div] at h
        | fin sum =>
          rw [hv, div_fin _ _ _ h0] at h
          exact ⟨z, half, sum, rfl, lt_of_le_of_ne hz0 (Ne.symm h0), hh, round_nonneg (by positivity) hh, hv, h⟩

/-- No finite quotient lies beyond the bin of the outermost sum. -/
theorem floor_le_edgeBin {x sr q : Rat} {b : Nat} (hs : 0 < sr)
    (h : binQuotient .binary64 (.fin x) (.fin sr) b = .fin q) :
    edgeBin .binary64 (-greatest64) (.fin sr) b ≤ q.floor ∧ q.floor ≤ edgeBin .binary64 greatest64 (.fin sr) b := by
  obtain ⟨z, half, sum, hz, hz0, -, -, hsum, hq⟩ := binQuotient_fin hs h
  obtain ⟨s1, s2⟩ := abs_le.mp (round64_abs_le hsum)
  obtain ⟨q1, q2⟩ := abs_le.mp (round64_abs_le hq)
  have hne : NUM.eqv (.fin z) .zero = false := by simp [hz0.ne']
  simp only [edgeBin, hz, hne, Bool.false_eq_true, if_false, div_fin _ _ _ hz0.ne']
  constructor
  · cases he : NumFormat.binary64.round (-greatest64 / z) with
    | fin e => exact Int.floor_le_floor (round_mono (by gcongr) he hq)
    | inf n => exact Int.floor_le_floor q1
    | nan => exact absurd he (round_ne_nan _ _)
  · cases he : NumFormat.binary64.round (greatest64 / z) with
    | fin e => exact Int.floor_le_floor (round_mono (by gcongr) hq he)
    | inf n => exact Int.floor_le_floor q2
    | nan => exact absurd he (round_ne_nan _ _)

/-- A frequency at or above 0 has a bin at or above 0 (40_binmap.md R69 (a), (c)), in both instantiations. -/
theorem bin_nonneg {f : NumFormat} {x sr : Rat} {b : Nat} (hx : 0 ≤ x) (hs : 0 < sr) :
    0 ≤ bin f (.fin x) (.fin sr) b := by
  unfold bin
  cases hq : binQuotient f (.fin x) (.fin sr) b with
  | inf n => simpa [NUM.floor?, not_lt.mpr hx] using binAbove_nonneg f (.fin x) (.fin sr) b
  | nan => simpa [NUM.floor?, not_lt.mpr hx] using binAbove_nonneg f (.fin x) (.fin sr) b
  | fin q =>
    simp only [NUM.floor?]
    obtain ⟨z, half, sum, -, hz, -, hh, hsum, hq⟩ := binQuotient_fin hs hq
    have := round_nonneg (by positivity) hsum
    have : 0 ≤ q := round_nonneg (by positivity) hq
    exact Int.floor_nonneg.mpr this

/-- In exact arithmetic the quotient is the formula of 40_binmap.md R67. -/
theorem binQuotient_exact {x sr : Rat} {b : Nat} (hs : 0 < sr) (hb : 1 ≤ b) :
    binQuotient .exact (.fin x) (.fin sr) b = .fin ((x + sr / b / 2) / (sr / b)) := by
  have hb' : (b : Rat) ≠ 0 := by exact_mod_cast (by omega : b ≠ 0)
  have hd : sr / (b : Rat) ≠ 0 := div_ne_zero hs.ne' hb'
  simp [binQuotient, binSize, div_fin _ _ _ hb', div_fin _ _ _ hd, div_fin _ _ (2 : Rat) (by norm_num)]

end Sys2Proof.Machine
end

