-- ==== Sys2Proof/Laws/Checks.lean ====
section
/-! SUPPORT. What the list-shaped operations say, index by index: the checks of spec/41_decoder.md R72, the magnitudes of
a frame (spec/20_memory.md R38), and the timeline (spec/20_memory.md R42). -/

namespace Sys2Proof.Machine

open Sys2Proof.Claims

/-! ## The four checks -/

theorem centersIncrease_iff (channels : List Channel) :
    CentersIncrease channels ↔ strictlyIncreasing (channels.map Channel.center) = true := by
  induction channels with
  | nil => simp [CentersIncrease, strictlyIncreasing]
  | cons a rest ih =>
    cases rest with
    | nil =>
      simp only [List.map, strictlyIncreasing, CentersIncrease]
      simp
    | cons b rest =>
      simp only [List.map, strictlyIncreasing, Bool.and_eq_true] at ih ⊢
      rw [← ih]
      constructor
      · intro h
        exact ⟨h 0 a b rfl rfl, fun c x y hx hy => h (c + 1) x y hx hy⟩
      · rintro ⟨h0, h⟩ c x y hx hy
        cases c with
        | zero => simp at hx hy; subst hx hy; exact h0
        | succ c => exact h c x y hx hy

theorem hasEqualNeighbours_iff (l : List Int) :
    hasEqualNeighbours l = false ↔ ∀ (c : Nat) (a b : Int), l[c]? = some a → l[c + 1]? = some b → a ≠ b := by
  induction l with
  | nil => simp [hasEqualNeighbours]
  | cons x rest ih =>
    cases rest with
    | nil => simp [hasEqualNeighbours]
    | cons y rest =>
      simp only [hasEqualNeighbours, Bool.or_eq_false_iff, decide_eq_false_iff_not] at ih ⊢
      rw [ih]
      constructor
      · rintro ⟨h0, h⟩ c a b ha hb
        cases c with
        | zero => simp at ha hb; subst ha hb; exact h0
        | succ c => exact h c a b ha hb
      · intro h
        exact ⟨h 0 x y rfl rfl, fun c a b ha hb => h (c + 1) a b ha hb⟩

theorem binsDiffer_iff (p : DecConfig) :
    BinsDiffer p ↔ hasEqualNeighbours (p.channels.map (channelBin .binary64 p)) = false := by
  rw [hasEqualNeighbours_iff]
  constructor
  · intro h c a b ha hb
    simp only [List.getElem?_map, Option.map_eq_some_iff] at ha hb
    obtain ⟨x, hx, rfl⟩ := ha
    obtain ⟨y, hy, rfl⟩ := hb
    exact h c x y hx hy
  · intro h c x y hx hy
    exact h c _ _ (by simp [hx, channelBin]) (by simp [hy, channelBin])

theorem inRange_iff (p : DecConfig) (ch : Channel) : InRange p ch ↔ outOfRange .binary64 p ch = false := by
  simp [InRange, outOfRange, channelBin, frameLength, and_assoc]

theorem allInRange_iff (p : DecConfig) :
    (∀ ch ∈ p.channels, InRange p ch) ↔ p.channels.any (outOfRange .binary64 p) = false := by
  simp [inRange_iff]

/-- The checks of DCFG pass exactly when the four conditions of R72 hold. -/
theorem checkDcfg_none_iff (p : DecConfig) :
    checkDcfg .binary64 p = none ↔
      2 ≤ p.channels.length ∧ CentersIncrease p.channels ∧ (∀ ch ∈ p.channels, InRange p ch) ∧ BinsDiffer p := by
  rw [centersIncrease_iff, allInRange_iff, binsDiffer_iff]
  unfold checkDcfg checkChannelList
  by_cases h1 : p.channels.length < 2
  · simp [h1]
  · by_cases h2 : strictlyIncreasing (p.channels.map Channel.center) = true
    · cases h3 : p.channels.any (outOfRange .binary64 p) <;>
        cases h4 : hasEqualNeighbours (p.channels.map (channelBin .binary64 p)) <;> simp [h1, h2, Nat.le_of_not_lt h1]
    · simp [h1, h2]

/-! ## The magnitudes of a frame -/

/-- `channelMags` reads every channel's bin, and has a result only when every read has one. -/
theorem channelMags_iff (f : NumFormat) (p : DecConfig) (fr : Frame) (channels : List Channel) (m : List NUM) :
    channelMags f p fr channels = some m ↔
      m.length = channels.length ∧ ∀ (c : Nat) (ch : Channel) (x : NUM), channels[c]? = some ch → m[c]? = some x →
        magRead fr (channelBin f p ch) = some x := by
  induction channels generalizing m with
  | nil => cases m <;> simp [channelMags]
  | cons ch rest ih =>
    constructor
    · intro h
      simp only [channelMags] at h
      split at h
      · rename_i x xs hx hxs
        cases h
        obtain ⟨hl, hi⟩ := (ih xs).mp hxs
        refine ⟨by simp [hl], ?_⟩
        intro c ch' y hc hy
        cases c with
        | zero => simp at hc hy; subst hc hy; exact hx
        | succ c => exact hi c ch' y hc hy
      · cases h
    · rintro ⟨hl, hi⟩
      cases m with
      | nil => simp at hl
      | cons x xs =>
        have hx := hi 0 ch x rfl rfl
        have hxs := (ih xs).mpr ⟨by simpa using hl, fun c ch' y hc hy => hi (c + 1) ch' y hc hy⟩
        simp only [channelMag, channelMags, hx, hxs]

theorem magRead_iff (fr : Frame) (k : Int) (x : NUM) : magRead fr k = some x ↔ 0 ≤ k ∧ fr[k.toNat]? = some x := by
  unfold magRead; split <;> simp_all

/-- The statements' reading of a frame is the machine's. -/
theorem frameReads_iff (s : State) (fr : Frame) (m : List NUM) :
    FrameReads s fr m ↔ channelMags .binary64 s.dec.cfg fr s.dec.cfg.channels = some m := by
  rw [channelMags_iff]
  simp only [FrameReads, magRead_iff, channelBin]

/-! ## The timeline -/

/-- A sequence of `TlWrite` calls appends them all, and is defined only when every channel exists. -/
theorem tlWriteAll_eq (count : Nat) (tl calls : List Setpoint) :
    tlWriteAll count tl calls = if ∀ q ∈ calls, q.c < count then some (tl ++ calls) else none := by
  induction calls generalizing tl with
  | nil => simp [tlWriteAll]
  | cons q rest ih =>
    by_cases hq : q.c < count
    · simp [tlWriteAll, tlWrite, hq, ih]
    · simp [tlWriteAll, tlWrite, hq]

@[simp] theorem channelTimeline_append (a b : List Setpoint) (c : Nat) :
    channelTimeline (a ++ b) c = channelTimeline a c ++ channelTimeline b c := by simp [channelTimeline]

@[simp] theorem channelTimeline_nil (c : Nat) : channelTimeline [] c = [] := rfl

theorem channelTimeline_cons (q : Setpoint) (tl : List Setpoint) (c : Nat) :
    channelTimeline (q :: tl) c = (if q.c = c then [(q.t, q.g)] else []) ++ channelTimeline tl c := by
  by_cases h : q.c = c <;> simp [channelTimeline, h]

/-- The data calls of a slot write channel `k + j + 2` once for each element `j`, and no other. -/
theorem channelTimeline_dataCalls (p : EncConfig) (t : NUM) (k : Nat) (sym : Symbol) (c : Nat) :
    channelTimeline (dataCalls p t k sym) c =
      if k + 2 ≤ c then
        match sym[c - (k + 2)]? with
        | some b => [(t, bitGain p b)]
        | none => []
      else [] := by
  induction sym generalizing k with
  | nil => simp [dataCalls]
  | cons b rest ih =>
    rw [dataCalls, channelTimeline_cons, ih]
    rcases lt_trichotomy c (k + 2) with h | rfl | h
    · have h1 : ¬ k + 1 + 2 ≤ c := by omega
      have h2 : ¬ k + 2 ≤ c := by omega
      have h3 : k + 2 ≠ c := by omega
      simp [DATA, h1, h2, h3]
    · simp [DATA]
    · obtain ⟨j, rfl⟩ : ∃ j, c = k + 3 + j := ⟨c - (k + 3), by omega⟩
      have h3 : k + 2 ≠ k + 3 + j := by omega
      have e1 : k + 3 + j - (k + 2) = j + 1 := by omega
      have e2 : k + 3 + j - (k + 1 + 2) = j := by omega
      have e3 : k + 2 ≤ k + 3 + j := by omega
      have e4 : k + 1 + 2 ≤ k + 3 + j := by omega
      rw [if_neg (show ¬(⟨DATA k, t, bitGain p b⟩ : Setpoint).c = k + 3 + j from h3)]
      simp only [e1, e2, e3, e4, if_true, List.getElem?_cons_succ, List.nil_append]

/-- With no symbol the transmission stops at its start (42_encoder.md R95 (b)). -/
@[simp] theorem stopTime_zero (f : NumFormat) (p : EncConfig) (t0 : NUM) : stopTime f p t0 0 = t0 := rfl

/-- With symbols it stops where the slot after the last would start (42_encoder.md R90). -/
@[simp] theorem stopTime_succ (f : NumFormat) (p : EncConfig) (t0 : NUM) (n : Nat) :
    stopTime f p t0 (n + 1) = slotStart f p t0 (n + 1) := rfl

end Sys2Proof.Machine
end

