-- ==== Sys2Proof/Laws/PerInstr.lean ====
section
/-! SUPPORT. Statements made per instruction. `EncodedShape`: the encoding of an instruction has an opcode of the map, its
payload has that format, and reading it back gives the instruction (spec/30_encoding.md R52 to R56). -/

namespace Sys2Proof.Laws.EncodedShape

def Statement (i : Instr) : Prop :=
  ∃ f, formatOf (encode i).opcode = some f ∧ readPayload f (encode i).payload = some i

theorem bin (f sr : NUM) (b : Nat) : Statement (.bin f sr b) := ⟨.Q, (by decide : formatOf 0x00#8 = some .Q), rfl⟩
theorem dcfg (p : DecConfig) (raw : Bool) : Statement (.dcfg p raw) := ⟨.DC, (by decide : formatOf 0x10#8 = some .DC), rfl⟩
theorem frame (m : Frame) : Statement (.frame m) := ⟨.F, (by decide : formatOf 0x11#8 = some .F), rfl⟩
theorem detach : Statement .detach := ⟨.K, (by decide : formatOf 0x12#8 = some .K), rfl⟩
theorem ecfg (p : EncConfig) : Statement (.ecfg p) := ⟨.EC, (by decide : formatOf 0x20#8 = some .EC), rfl⟩
theorem encode (ss : List Symbol) (t0 : NUM) : Statement (.encode ss t0) := ⟨.E, (by decide : formatOf 0x21#8 = some .E), rfl⟩

end Sys2Proof.Laws.EncodedShape
end

