-- ==== Sys2Proof/Tests/Slice0.lean ====
section
/-! SUPPORT. Tests. The expected results are those of spec/95_test_vectors.md, or are worked out by hand from the rule
named. The witnesses of the statements' hypotheses are in Tests/Witnesses.lean. -/

namespace Sys2Proof.Tests

-- One proof at a time: each proof the kernel evaluates would else hold a thread of its own.
set_option Elab.async false

open Sys2Proof.Machine Sys2Proof.Claims

/-! ## Decoding: words written out from 30_encoding.md R51, R52 -/

theorem test_decode_bin :
    decode ⟨0b0000_0000#8, [.num (.fin 1000), .num (.fin 32768), .nat 1024]⟩ =
      .instr (.bin (.fin 1000) (.fin 32768) 1024) := by decide
theorem test_decode_dcfg :
    decode ⟨0b0001_0000#8, [.nat 4, .num .two, .channels [], .num .one, .num .zero, .num .half, .bool true]⟩ =
      .instr (.dcfg ⟨4, .two, [], .one, .zero, .half⟩ true) := by decide +kernel
theorem test_decode_frame : decode ⟨0b0001_0001#8, [.nums [.one, .two]]⟩ = .instr (.frame [.one, .two]) := by decide
theorem test_decode_detach : decode ⟨0b0001_0010#8, []⟩ = .instr .detach := by decide
theorem test_decode_ecfg :
    decode ⟨0b0010_0000#8, [.channels [], .num .zero, .num .one, .num .quarter, .num .two, .num .half]⟩ =
      .instr (.ecfg ⟨[], .zero, .one, .quarter, .two, .half⟩) := by decide +kernel
theorem test_decode_encode :
    decode ⟨0b0010_0001#8, [.symbols [[true], [false]], .num .one]⟩ = .instr (.encode [[true], [false]] .one) := by decide

/-- 250 of the 256 opcode bytes are reserved (R62); the six of R52 are not. -/
theorem test_reserved_opcodes :
    ∀ b : BitVec 8, (formatOf b).isSome = decide (b.toNat ∈ [0x00, 0x10, 0x11, 0x12, 0x20, 0x21]) := by decide
theorem test_payload_of_another_format : decode ⟨0x12#8, [.nat 1]⟩ = .payloadMismatch 0x12#8 := by decide

/-! ## Well-formedness: an ill-formed term for each check, which the check refuses -/

def chans (centers : List Rat) : List Channel := centers.map fun x => ⟨.fin x, .one⟩

theorem smoke_nonfinite_operands :
    ∀ i ∈ [Instr.bin .nan .one 1, .bin .one (.inf true) 1, .dcfg ⟨4, .nan, [], .zero, .zero, .zero⟩ false,
        .dcfg ⟨4, .one, [⟨.nan, .one⟩], .zero, .zero, .zero⟩ false, .dcfg ⟨4, .one, [⟨.one, .nan⟩], .zero, .zero, .zero⟩ false,
        .dcfg ⟨4, .one, [], .inf false, .zero, .zero⟩ false, .dcfg ⟨4, .one, [], .zero, .nan, .zero⟩ false,
        .dcfg ⟨4, .one, [], .zero, .zero, .nan⟩ false, .frame [.zero, .inf true],
        .ecfg ⟨[⟨.nan, .one⟩], .zero, .zero, .zero, .one, .zero⟩, .ecfg ⟨[], .nan, .zero, .zero, .one, .zero⟩,
        .ecfg ⟨[], .zero, .nan, .zero, .one, .zero⟩, .ecfg ⟨[], .zero, .zero, .nan, .one, .zero⟩,
        .ecfg ⟨[], .zero, .zero, .zero, .inf false, .zero⟩, .ecfg ⟨[], .zero, .zero, .zero, .one, .nan⟩,
        .encode [] .nan, .encode [] (.fin (1 / 3))],
      i.operandsFinite Config.build = false := by decide +kernel

theorem smoke_illformed_payloads :
    ∀ i ∈ [Instr.bin .one .zero 1, .bin .one .one 0, .dcfg ⟨0, .one, [], .zero, .zero, .zero⟩ false,
        .dcfg ⟨1, .one, [], .zero, .zero, .zero⟩ false, .dcfg ⟨6, .one, [], .zero, .zero, .zero⟩ false,
        .dcfg ⟨4, .zero, [], .zero, .zero, .zero⟩ false, .dcfg ⟨4, .one, [], .zero, .zero, .one⟩ false,
        .dcfg ⟨4, .one, [], .zero, .zero, .fin (-1)⟩ false, .ecfg ⟨[], .zero, .two, .zero, .one, .zero⟩,
        .ecfg ⟨[], .zero, .zero, .fin (-1), .one, .zero⟩, .ecfg ⟨[], .zero, .zero, .zero, .zero, .zero⟩],
      i.operandsFinite Config.build = true ∧ i.payloadOk Config.build = false := by decide +kernel

/-- The open limits, where a build sets them (00_scope.md R8). -/
theorem smoke_limits :
    (Instr.dcfg ⟨4, .one, chans [0, 1], .zero, .zero, .zero⟩ false).payloadOk { Config.build with cMax := some 1 } = false ∧
      (Instr.encode [[], []] .zero).payloadOk { Config.build with nMax := some 1 } = false := by decide +kernel

/-! ## States -/

/-- The configuration CFG-A of 95_test_vectors.md. -/
def cfgA : DecConfig := ⟨1024, .fin 32768, chans [1000, 1100, 1200, 1300], .fin 6, .fin 10, .half⟩

/-- CFG-A with a shorter transform: the same bin size, so the same bins 31, 34, 38, 41, and a frame of 64 elements. -/
def cfgS : DecConfig := { cfgA with transformBlockSize := 128, sampleRate := .fin 4096 }

/-- ENC-A of 95_test_vectors.md. -/
def encA : EncConfig := ⟨chans [1000, 1100, 1200, 1300], .fin 10, .one, .quarter, .fin 60, .fin 20⟩

def stateOf (p : DecConfig) (raw level : Bool) (avg : List Rat) (collected : Nat) : State :=
  { State.reset with dec := ⟨p, true, true, raw, level, avg.map .fin, collected⟩ }

def encState4 : State := { State.reset with enc := Enc.fresh encA }

/-- FRAMEC with `else -100`. -/
def frameC (mags : List Rat) : Frame := Asm.channelMagsFrame .binary64 cfgS (mags.map .fin) (.fin (-100))

def nextOf (r : Result) : Option State :=
  match r with
  | .next s => some s
  | .fault _ => none
  | .refused _ => none

def decOf (r : Result) : Option (Bool × List NUM × Nat) :=
  (nextOf r).map fun s => (s.dec.clockLevel, s.dec.avg, s.dec.collected)

def repliesOf (r : Result) : Option (List Reply) := (nextOf r).map State.transcript

/-! ## One step: 95_test_vectors.md -/

/-- Section 2.1, rows of every `(sr, B)` pair, the half-bin corners among them. -/
theorem test_bin_table :
    ∀ row ∈ [((0 : Rat), (32768 : Rat), 1024, (0 : Int)), (16, 32768, 1024, 1), (1000, 32768, 1024, 31),
        (1200, 32768, 1024, 38), (16370, 32768, 1024, 512), (-16, 32768, 1024, 0), (-33 / 2, 32768, 1024, -1),
        (375 / 32, 48000, 2048, 1), (23999, 48000, 2048, 1024), (19000, 44100, 2048, 882), (3984, 8000, 256, 127),
        (31875 / 8, 8000, 256, 128)],
      bin .binary64 (.fin row.1) (.fin row.2.1) row.2.2.1 = row.2.2.2 ∧
        bin .exact (.fin row.1) (.fin row.2.1) row.2.2.1 = row.2.2.2 := by decide +kernel

/-- 40_binmap.md R68, R69 (a) where the quotient overflows (`f = ±2^1023`, `sr = 1/2`, `B = 1`): the bound is the greatest
finite value, above `bin(2^1022) = 2^1023`, and a negative frequency has a negative index. -/
theorem test_bin_overflow :
    edgeBin .binary64 greatest64 (.fin (1 / 2)) 1 = 2 ^ 1024 - 2 ^ 971 ∧
    bin .binary64 (.fin (pow2 1022)) (.fin (1 / 2)) 1 = 2 ^ 1023 := by decide +kernel

theorem test_bin_overflow_negative : bin .binary64 (.fin (-pow2 1023)) (.fin (1 / 2)) 1 < 0 := by
  have h : (binQuotient .binary64 (.fin (-pow2 1023)) (.fin (1 / 2)) 1).floor? = none := by decide +kernel
  have hn : NUM.lt (.fin (-pow2 1023)) .zero = true := by decide +kernel
  simp only [bin, h, hn, if_true]
  exact binBelow_neg _ _ _ _

/-- 60_exceptions.md R107: RAW_FRAME and SYMBOL leave before the response. -/
theorem test_events_before_response :
    Reply.outputs ⟨⟨.ok, none, none⟩, [.rawFrame [], .symbol [true]], []⟩ =
      [.event (.rawFrame []), .event (.symbol [true]), .response ⟨.ok, none, none⟩] := by decide

/-- 00_scope.md R9: `num(B)` is exact, also where `B = 2^53 + 1` is no value of binary64. -/
theorem test_num_exact : bin .binary64 (.fin (2 ^ 52)) (.fin (2 ^ 53)) (2 ^ 53 + 1) = 2 ^ 52 + 1 := by decide +kernel

/-- 90_conflicts.md C3: "`x / 0` is not-a-number only when `x` is 0; for `x` not 0 it is an infinity". -/
theorem test_division_by_zero :
    [(-1 : Rat), 0, 1].map (fun x => NUM.div .binary64 (.fin x) .zero) = [.inf true, .nan, .inf false] := by
  decide +kernel

theorem test_bin_answers : repliesOf (exec (.bin (.fin 1000) (.fin 32768) 1024) State.reset) =
    some [⟨⟨.ok, none, some 31⟩, [], []⟩] := by decide +kernel

/-- Section 2.2, the cause for each list of centers, the order of checks among them. -/
theorem test_dcfg_causes :
    ∀ row ∈ [([1000, 1100, 1200, 1300], (none : Option Cause)), ([1000, 1100], none), ([], some .tooFewChannels),
        ([99999], some .tooFewChannels), ([1000, 1000], some .nonMonotonic), ([20000, 1000], some .nonMonotonic),
        ([-10, 1000], some .range), ([1000, 16384], some .range), ([1000, 16370], some .range), ([1000, 16367], none),
        ([1000, 1005], some .overlap), ([1000, 1008], none), ([1000, 1005, 20000], some .range)],
      checkDcfg .binary64 { cfgA with channels := chans row.1 } = row.2 := by decide +kernel

theorem test_dcfg_fresh : nextOf (exec (.dcfg cfgA false) State.reset) =
    some { stateOf cfgA false false [0, 0, 0, 0] 0 with transcript := [⟨⟨.ok, none, none⟩, [], []⟩] } := by
  decide +kernel

/-- Section 2.3, F1, F2, F3, F5: the registers after held low, rising, held high, and a truncated falling edge. -/
theorem test_frame_registers :
    decOf (exec (.frame (frameC [-98, -100, -100, -100])) (stateOf cfgS false false [0, 0, 0, 0] 0)) =
      some (false, [.fin 0, .fin 0, .fin 0, .fin 0], 0) ∧
    decOf (exec (.frame (frameC [-40, -50, 0, 0])) (stateOf cfgS false false [-160, -200, -176, -180] 4)) =
      some (true, [.fin 0, .fin 0, .fin 0, .fin 0], 0) ∧
    decOf (exec (.frame (frameC [-42, -52, -46, -44])) (stateOf cfgS false true [-40, -50, -44, -46] 1)) =
      some (true, [.fin (-82), .fin (-102), .fin (-90), .fin (-90)], 2) ∧
    repliesOf (exec (.frame (frameC [-98, -100, -40, -40])) (stateOf cfgS false true [0, 0, 0, 0] 0)) =
      some [⟨⟨.ok, none, none⟩, [], []⟩] := by decide +kernel

/-- Section 2.3, F4 with F10 (RAW_FRAME first), F6, F9: what a falling edge emits. -/
theorem test_frame_events :
    (let fr := frameC [-98, -100, -70, -70]
     repliesOf (exec (.frame fr) (stateOf cfgS true true [-160, -200, -176, -180] 4)) =
      some [⟨⟨.ok, none, none⟩, [.rawFrame fr, .symbol [true, false]], []⟩]) ∧
    repliesOf (exec (.frame (frameC [-60, -50, 0, 0]))
        (stateOf { cfgS with decodeThreshold := .fin (-1) } false true [-100, -100, -90, -110] 2)) =
      some [⟨⟨.ok, none, none⟩, [.undecodable], []⟩] ∧
    repliesOf (exec (.frame (frameC [-80, -40, 0, 0]))
        (stateOf { cfgS with decodeThreshold := .fin (-20) } false true [-100, -80, -96, -84] 2)) =
      some [⟨⟨.ok, none, none⟩, [.symbol [true, false]], []⟩] := by decide +kernel

/-- Section 2.4, V-NUM: the window on which the two instantiations of NUM differ; the literals are read as R64 says. -/
def vnumSymbol (f : NumFormat) : Event :=
  let sum (xs : List Rat) : NUM := (xs.map f.round).foldl (NUM.add f) .zero
  symbolEvent f (NUM.ofNat 3) (sum [-40, -203 / 5, -403 / 10]) (sum [-50, -253 / 5, -503 / 10])
    [sum [-45, -228 / 5, -453 / 10]]

theorem test_vnum : vnumSymbol .exact = .symbol [false] ∧ vnumSymbol .binary64 = .symbol [true] := by decide +kernel

/-- Section 2.5. -/
theorem test_detach :
    repliesOf (exec .detach State.reset) = some [⟨⟨.notConfigured, none, none⟩, [], []⟩] ∧
    (nextOf (exec .detach (stateOf cfgA false true [-40, -50, -40, -50] 1))).map State.dec =
      some ⟨cfgA, true, false, false, true, [.fin (-40), .fin (-50), .fin (-40), .fin (-50)], 1⟩ := by decide +kernel

/-- Section 2.6. -/
theorem test_ecfg :
    (nextOf (exec (.ecfg { encA with channels := chans [1000, 1005] }) State.reset)).map State.enc =
      some ⟨{ encA with channels := chans [1000, 1005] }, true, none, none⟩ ∧
    repliesOf (exec (.ecfg { encA with channels := chans [1100, 1000] }) State.reset) =
      some [⟨⟨.configError, some .nonMonotonic, none⟩, [], []⟩] := by decide +kernel

/-- Section 2.7, E1: the setpoint records in port order. -/
theorem test_encode_records :
    (repliesOf (exec (.encode [[true, false], [false, true]] (.fin 1000)) encState4)).map
        (fun rs => rs.flatMap Reply.setpoints) =
      some [⟨1, .fin 1000, .quarter⟩, ⟨2, .fin 1000, .one⟩, ⟨3, .fin 1000, .quarter⟩, ⟨0, .fin 1020, .one⟩,
        ⟨0, .fin 1060, .quarter⟩, ⟨2, .fin 1080, .quarter⟩, ⟨3, .fin 1080, .one⟩, ⟨0, .fin 1100, .one⟩,
        ⟨0, .fin 1140, .quarter⟩, ⟨0, .fin 1160, .zero⟩, ⟨1, .fin 1160, .zero⟩, ⟨2, .fin 1160, .zero⟩,
        ⟨3, .fin 1160, .zero⟩] := by decide +kernel

/-- Section 2.7, E5, and the encoder state of E1. -/
theorem test_encode_state :
    repliesOf (exec (.encode [[true, false], [true]] .zero) encState4) =
      some [⟨⟨.configError, some .symbolLength, none⟩, [], []⟩] ∧
    (nextOf (exec (.encode [[true, false], [false, true]] (.fin 1000)) encState4)).map
        (fun s => [encState s.enc (.fin 999), encState s.enc (.fin 1000), encState s.enc (.fin 1160)]) =
      some [.idle, .transmitting, .idle] := by decide +kernel

/-- Where the slot length overflows: `stop_t = t0` for no symbol (42_encoder.md R95 (b)), and with a symbol `num(0) * P` is
IEEE 754's not-a-number (00_scope.md R9, 42_encoder.md R90). -/
theorem test_encode_of_an_overflowing_slot :
    let p : EncConfig := { encA with symbolDuration := .fin (pow2 1023), symbolPause := .fin (pow2 1023) }
    slotLength .binary64 p = .inf false ∧ stopTime .binary64 p (.fin 500) 0 = .fin 500 ∧
      slotStart .binary64 p (.fin 500) 0 = .nan ∧ riseTime .binary64 p (.fin 500) 0 = .nan ∧
      stopTime .binary64 p (.fin 500) 1 = .inf false := by decide +kernel

/-- The codes of 30_encoding.md R57 to R59. -/
theorem test_codes :
    [Status.ok, .configError, .notConfigured, .illegalCmd, .frameFault, .detached].map (fun s => s.code.toNat) =
      [0, 1, 2, 3, 4, 5] ∧
    [Cause.tooFewChannels, .nonMonotonic, .range, .overlap, .symbolLength, .length].map (fun c => c.code.toNat) =
      [1, 2, 3, 4, 5, 1] ∧
    [Event.rawFrame [], .symbol [], .undecodable].map (fun e => e.kind.toNat) = [0, 1, 2] := by decide

/-- 30_encoding.md R64: lines of 95_test_vectors.md, read; `;` starts a comment. -/
theorem test_assembler_reads :
    Asm.assemble .binary64 none
      ["DCFG B=128 sr=4096 thr=6 q=10 smooth=0.5 raw=0 ch=[(1000,1),(1100,1),(1200,1),(1300,1)]".toList,
        "FRAMEC (-98,-100,-70,-70; else -100)  ; falling".toList, "REPEAT 2: DETACH".toList, "".toList,
        "  ; a comment only".toList,
        "ENCODE t0=1000 [[1,0],[]]".toList] =
      some [encode (.dcfg cfgS false), encode (.frame (frameC [-98, -100, -70, -70])), encode .detach, encode .detach,
        encode (.encode [[true, false], []] (.fin 1000))] := by decide +kernel

/-- Log 16: after a DCFG line with a center at -1 Hz, on bin -1, FRAMEC gives that channel's value no element. -/
theorem test_framec_negative_bin :
    Asm.channelMagsFrame .binary64 ⟨4, .fin 4, chans [-1, 1], .zero, .zero, .zero⟩ [.one, .two] .zero =
      [.zero, .two] := by decide +kernel

/-- 30_encoding.md R64, R65 (a); the braces are written by code. -/
theorem test_assembler_sparse_and_text :
    Asm.assemble .binary64 none
      ["FRAME ".toList ++ [Asm.openBrace] ++ "1:-40; else -100; len 3".toList ++ [Asm.closeBrace]] =
      some [encode (.frame [.fin (-100), .fin (-40), .fin (-100)])] ∧
    Asm.replyText ⟨⟨.configError, some .range, none⟩, [.symbol [true, false]], [⟨1, .fin (-5 / 4), .quarter⟩]⟩ =
      ["-> CONFIG_ERROR(RANGE)", "! SYMBOL [1,0]", "@ (1,-1.25,0.25)"] := by decide +kernel

end Sys2Proof.Tests
end

