-- ==== Sys2Proof/Tests/Witnesses.lean ====
section
/-! SUPPORT. For every obligation with hypotheses, a named theorem with a concrete state and operands that meet all of
them together; where a statement has clauses, one for each clause. -/

namespace Sys2Proof.Tests

-- One proof at a time: each proof the kernel evaluates would else hold a thread of its own.
set_option Elab.async false

open Sys2Proof.Machine Sys2Proof.Claims

/-! ## States -/

/-- Three channels at 0, 1, 2 Hz on bins 0, 1, 2; a frame has 4 elements. -/
def wcfg : DecConfig := ⟨8, .fin 8, chans [0, 1, 2], .fin 6, .zero, .zero⟩

/-- The same with a threshold of -1 dB. -/
def wneg : DecConfig := { wcfg with decodeThreshold := .fin (-1) }

def wenc : EncConfig := ⟨chans [0, 1, 2], .zero, .one, .quarter, .fin 60, .fin 20⟩

def fr4 (xs : List Rat) : Frame := xs.map .fin

def wenc1 : State := { State.reset with enc := Enc.fresh wenc }

theorem admitted_of {s : State} {fr : Frame}
    (h : (s.dec.valid && s.dec.attached && decide (fr.length = s.dec.cfg.transformBlockSize / 2) &&
      fr.all (NUM.isValue .binary64)) = true) : FrameAdmitted s fr := by
  simpa [FrameAdmitted, and_assoc] using h

theorem level_of {s : State} {a b : NUM} {rest : List NUM} {l : Bool}
    (h : l = NUM.gt (NUM.sub .binary64 a b) s.dec.cfg.decodeThreshold) : Level s (a :: b :: rest) l :=
  ⟨a, b, rfl, rfl, h⟩

/-- A frame of three magnitudes `m` and a fourth element is admitted and read as `m`. -/
def Reads (s : State) (m : List Rat) (l : Bool) : Prop :=
  FrameAdmitted s (fr4 (m ++ [0])) ∧ FrameReads s (fr4 (m ++ [0])) (fr4 m) ∧ Level s (fr4 m) l

theorem nextOf_some {r : Result} {t : State} (h : nextOf r = some t) : r = .next t := by
  cases r <;> simp [nextOf] at h; rw [h]

/-! ## Encoding and the step -/

theorem witness_ReservedOpcodesAnswerIllegalCmd :
    ∀ b ∈ [0x01#8, 0x0F#8, 0x13#8, 0x1F#8, 0x22#8, 0x2F#8, 0x30#8, 0xFF#8],
      (∃ s : State, s.incoming = .command ⟨b, []⟩ :: []) ∧
      ((1 ≤ b.toNat ∧ b.toNat ≤ 0x0F) ∨ (0x13 ≤ b.toNat ∧ b.toNat ≤ 0x1F) ∨
        (0x22 ≤ b.toNat ∧ b.toNat ≤ 0x2F) ∨ 0x30 ≤ b.toNat) := by
  intro b hb
  exact ⟨⟨{ State.reset with incoming := [.command ⟨b, []⟩] }, rfl⟩, by revert b; decide⟩

theorem witness_StepRunsTheDecodedCommand :
    (∃ (s : State) (cmd : Command), s.incoming = [.command cmd] ∧ decode cmd = .instr .detach) ∧
    ∃ (s : State) (cmd : Command), s.incoming = [.command cmd] ∧ decode cmd = .payloadMismatch 0x12#8 :=
  ⟨⟨{ State.reset with incoming := [.command ⟨0x12#8, []⟩] }, _, rfl, by decide⟩,
    ⟨{ State.reset with incoming := [.command ⟨0x12#8, [.nat 0]⟩] }, _, rfl, by decide⟩⟩

theorem witness_CommandsOutsideTheSpecAreRefused :
    (Instr.frame [.nan]).operandsFinite Config.build = false ∧
    (Instr.bin .one .zero 1).operandsFinite Config.build = true ∧
    (Instr.bin .one .zero 1).payloadOk Config.build = false := by decide +kernel

theorem witness_WellFormedConfigurationClauses :
    NUM.add Config.build.numFormat (.fin 60) (.fin 20) = .fin 80 := by decide +kernel

/-! ## Numbers -/

/-- A value that is rounded, a tie (`2 ^ 53 + 1` lies half way between `2 ^ 53` and `2 ^ 53 + 2`), the first magnitude that
overflows, of either sign, and the middle of two integers. -/
theorem witness_RoundingIsToTheNearestValue :
    round64 (1 / 10) = .fin (3602879701896397 / 36028797018963968) ∧ Representable 0 ∧
    (round64 (2 ^ 53 + 1) = .fin (2 ^ 53) ∧ Representable (2 ^ 53 + 2) ∧
      |(2 ^ 53 + 1 : Rat) - (2 ^ 53 + 2)| = |(2 ^ 53 + 1 : Rat) - 2 ^ 53|) ∧
    |(1 / 2 : Rat) - roundTiesEven (1 / 2)| = 1 / 2 ∧ round64 (pow2 1024 - pow2 970) = .inf false ∧
    round64 (pow2 970 - pow2 1024) = .inf true := by
  refine ⟨by decide +kernel, ⟨0, 0, by simp⟩, ⟨by decide +kernel, ⟨2 ^ 52 + 1, 1, by norm_num⟩, by norm_num⟩, ?_,
    by decide +kernel, by decide +kernel⟩
  have : roundTiesEven (1 / 2) = 0 := by decide +kernel
  rw [this]; norm_num

theorem witness_ResultsAreValues :
    NumFormat.binary64.round (1 / 10) = .fin (3602879701896397 / 36028797018963968) ∧
    NumFormat.exact.round (1 / 10) = .fin (1 / 10) := by decide +kernel

/-! ## BINMAP -/

theorem witness_BinAnswersTheFloorOfTheQuotient :
    (NUM.fin 1000).isValue .binary64 = true ∧ (NUM.fin 32768).isValue .binary64 = true ∧
    NUM.gt (.fin 32768) .zero = true ∧ 1 ≤ 1024 ∧
    NUM.div .binary64 (NUM.add .binary64 (.fin 1000) (NUM.div .binary64 (.fin 32) .two)) (.fin 32) =
      .fin (127 / 4) ∧ NUM.div .binary64 (.fin 32768) (NUM.ofNat 1024) = .fin 32 := by decide +kernel

/-- Two frequencies, the lower with a finite quotient and the upper with none (40_binmap.md R69 (a)). -/
theorem witness_BinIsMonotone :
    (0 : Rat) < 1 / 2 ∧ 1 ≤ 1 ∧ pow2 1022 ≤ pow2 1023 ∧
    binQuotient .binary64 (.fin (pow2 1022)) (.fin (1 / 2)) 1 = .fin (pow2 1023) ∧
    binQuotient .binary64 (.fin (pow2 1023)) (.fin (1 / 2)) 1 = .inf false := by decide +kernel

/-- Each clause at a frequency on its bound, with no finite quotient in the second part. -/
theorem witness_BinOutsideTheFrame :
    ((0 : Rat) < 32768 ∧ 1 ≤ 1024 ∧ (-33 / 2 : Rat) < -(32768 / (1024 : Nat) / 2) ∧
      (32768 : Rat) / 2 - 32768 / (1024 : Nat) / 2 ≤ 16368) ∧
    ((0 : Rat) < 1 / 2 ∧ 1 ≤ 1 ∧
      ∀ x ∈ [-pow2 1023, pow2 1023], (binQuotient .binary64 (.fin x) (.fin (1 / 2)) 1).isFinite = false) ∧
    ((0 : Rat) < pow2 (-1074) ∧ 1 ≤ 4 ∧ pow2 (-1074) / 2 - pow2 (-1074) / (4 : Nat) / 2 ≤ pow2 (-1074) ∧
      ∀ x ∈ [0, pow2 (-1074)], (binQuotient .binary64 (.fin x) (.fin (pow2 (-1074))) 4).isFinite = false) := by
  decide +kernel

theorem witness_BinIsTheHalfOpenInterval : (0 : Rat) < 32768 ∧ 1 ≤ 1024 := by decide +kernel

theorem witness_TopHalfBinIndexesPastTheFrame :
    (0 : Rat) < 32768 ∧ 1 ≤ 512 ∧ (0 : Rat) ≤ 16370 ∧ (16370 : Rat) < 32768 / 2 := by decide +kernel

/-! ## DEC: construction and detachment -/

/-- `wcfg` meets the four conditions of 41_decoder.md R72. -/
theorem wcfg_ok : 2 ≤ wcfg.channels.length ∧ CentersIncrease wcfg.channels ∧ (∀ ch ∈ wcfg.channels, InRange wcfg ch) ∧
    BinsDiffer wcfg := (checkDcfg_none_iff wcfg).mp (by decide +kernel)

theorem wcfg_wellFormed : (Instr.dcfg wcfg false).operandsFinite Config.build = true ∧
    (Instr.dcfg wcfg false).payloadOk Config.build = true := by decide +kernel

theorem witness_DcfgStartsAFreshDecoder :
    ∃ p raw, (Instr.dcfg p raw).operandsFinite Config.build = true ∧ (Instr.dcfg p raw).payloadOk Config.build = true ∧
      2 ≤ p.channels.length ∧ CentersIncrease p.channels ∧ (∀ ch ∈ p.channels, InRange p ch) ∧ BinsDiffer p :=
  ⟨wcfg, false, wcfg_wellFormed.1, wcfg_wellFormed.2, wcfg_ok⟩

theorem witness_FreshIsAfterASuccessfulDcfg : ∃ d : Dec, d.Fresh Config.build :=
  ⟨_, wcfg, false, (Bool.and_eq_true _ _).mpr wcfg_wellFormed, by decide +kernel, rfl⟩

/-- The four clauses, each with a well-formed payload: one channel; equal centers; a center in the top half-bin; two
centers on one bin (95_test_vectors.md section 2.2). -/
theorem witness_DcfgChecksDecideInOrder :
    (∀ cs ∈ [[1000], [1000, 1000], [1000, 16370], [1000, 1005]],
      (Instr.dcfg { cfgA with channels := chans cs } false).operandsFinite Config.build = true ∧
      (Instr.dcfg { cfgA with channels := chans cs } false).payloadOk Config.build = true) ∧
    (chans [1000]).length < 2 ∧
    (2 ≤ (chans [1000, 1000]).length ∧ ¬ CentersIncrease (chans [1000, 1000])) ∧
    (2 ≤ (chans [1000, 16370]).length ∧ CentersIncrease (chans [1000, 16370]) ∧
      ¬ ∀ ch ∈ chans [1000, 16370], InRange { cfgA with channels := chans [1000, 16370] } ch) ∧
    (2 ≤ (chans [1000, 1005]).length ∧ CentersIncrease (chans [1000, 1005]) ∧
      (∀ ch ∈ chans [1000, 1005], InRange { cfgA with channels := chans [1000, 1005] } ch) ∧
      ¬ BinsDiffer { cfgA with channels := chans [1000, 1005] }) := by
  have h := allInRange_iff { cfgA with channels := chans [1000, 16370] }
  have h' := allInRange_iff { cfgA with channels := chans [1000, 1005] }
  simp only at h h'
  rw [centersIncrease_iff, centersIncrease_iff, centersIncrease_iff, h, h', binsDiffer_iff]
  decide +kernel

theorem witness_AcceptedBinsAreDistinctAndInFrame :
    wcfg.sampleRate = .fin 8 ∧ (0 : Rat) < 8 ∧ 1 ≤ wcfg.transformBlockSize ∧
    (∀ ch ∈ wcfg.channels, ∃ x, ch.center = .fin x) ∧ checkDcfg .exact wcfg = none :=
  ⟨rfl, by norm_num, by decide, by simp [wcfg, chans], by decide +kernel⟩

theorem witness_DetachStopsDecoding :
    State.reset.dec.valid = false ∧ (stateOf wcfg false true [0, 0, 0] 0).dec.valid = true ∧
    ∀ x ∈ fr4 [0, 0], x.isValue .binary64 = true := by decide +kernel

theorem witness_OnlyDcfgAttaches :
    ∃ t, exec (.dcfg wcfg false) State.reset = .next t ∧ State.reset.dec.attached = false ∧ t.dec.attached = true := by
  exact ⟨{ State.reset with dec := Dec.fresh wcfg false, transcript := [okReply [] []] },
    nextOf_some (by decide +kernel), rfl, rfl⟩

/-! ## DEC: frames -/

theorem witness_FrameAdmissionTestsInOrder :
    (∀ x ∈ fr4 [0, 0, 0], x.isValue .binary64 = true) ∧ State.reset.dec.valid = false ∧
    (∃ s : State, s.dec.valid = true ∧ s.dec.attached = false) ∧
    ∃ s : State, s.dec.valid = true ∧ s.dec.attached = true ∧
      (fr4 [0, 0, 0]).length ≠ s.dec.cfg.transformBlockSize / 2 :=
  ⟨by decide +kernel, rfl,
    ⟨{ State.reset with dec := { (stateOf wcfg false false [] 0).dec with attached := false } }, rfl, rfl⟩,
    ⟨stateOf wcfg false false [] 0, rfl, rfl, by decide⟩⟩

theorem reads_of (p : DecConfig) (raw level l : Bool) (avg : List Rat) (n : Nat) (a b c : Rat)
    (hp : p.transformBlockSize = 8 ∧ [a, b, c, 0].all (fun x => (NUM.fin x).isValue .binary64) = true)
    (hr : channelMags .binary64 p (fr4 [a, b, c, 0]) p.channels = some (fr4 [a, b, c]))
    (hl : l = NUM.gt (NUM.sub .binary64 (.fin a) (.fin b)) p.decodeThreshold) :
    Reads (stateOf p raw level avg n) [a, b, c] l := by
  refine ⟨admitted_of ?_, (frameReads_iff _ _ _).mpr hr, level_of hl⟩
  have := hp.2
  simp only [List.all_cons, List.all_nil, Bool.and_true, Bool.and_eq_true] at this
  simp [stateOf, hp.1, fr4, this]

theorem witness_RisingEdgeZeroesTheSums :
    ∃ s fr m, FrameAdmitted s fr ∧ FrameReads s fr m ∧ s.dec.clockLevel = false ∧ Level s m true := by
  obtain ⟨h1, h2, h3⟩ := reads_of wcfg false false true [1, 2, 3] 4 (-40) (-50) 0
    (by decide +kernel) (by decide +kernel) (by decide +kernel)
  exact ⟨_, _, _, h1, h2, rfl, h3⟩

theorem witness_HeldHighAccumulatesEveryChannel :
    ∃ s fr m, FrameAdmitted s fr ∧ FrameReads s fr m ∧ s.dec.clockLevel = true ∧ Level s m true ∧
      s.dec.avg.length = s.dec.cfg.channels.length ∧
      ∀ (c : Nat) (a x : NUM), s.dec.avg[c]? = some a → m[c]? = some x → (NUM.add .binary64 a x).isFinite = true := by
  obtain ⟨h1, h2, h3⟩ := reads_of wcfg true true true [0, 0, 0] 0 (-40) (-50) (-44)
    (by decide +kernel) (by decide +kernel) (by decide +kernel)
  refine ⟨_, _, _, h1, h2, rfl, h3, rfl, ?_⟩
  intro c a x ha hx
  have key : ∀ q ∈ ([-40, -50, -44] : List Rat), (NUM.add .binary64 (.fin 0) (.fin q)).isFinite = true := by
    decide +kernel
  rcases c with _ | _ | _ | c <;> simp [stateOf, fr4] at ha hx <;> subst ha hx <;> exact key _ (by simp)

theorem witness_HeldLowChangesNothing :
    ∃ s fr m, FrameAdmitted s fr ∧ FrameReads s fr m ∧ s.dec.clockLevel = false ∧ Level s m false := by
  obtain ⟨h1, h2, h3⟩ := reads_of wcfg false false false [1, 2, 3] 4 (-44) (-50) 0
    (by decide +kernel) (by decide +kernel) (by decide +kernel)
  exact ⟨_, _, _, h1, h2, rfl, h3⟩

theorem witness_TruncatedWindowEmitsNothing :
    ∃ s fr m, FrameAdmitted s fr ∧ FrameReads s fr m ∧ s.dec.clockLevel = true ∧ Level s m false ∧
      s.dec.collected = 0 := by
  obtain ⟨h1, h2, h3⟩ := reads_of wcfg false true false [0, 0, 0] 0 (-98) (-100) 0
    (by decide +kernel) (by decide +kernel) (by decide +kernel)
  exact ⟨_, _, _, h1, h2, rfl, h3, rfl⟩

theorem witness_FallingEdgeEmitsTheThresholdedSymbol :
    ∃ s fr m clock ref n high low, FrameAdmitted s fr ∧ FrameReads s fr m ∧ s.dec.clockLevel = true ∧
      Level s m false ∧ s.dec.collected ≠ 0 ∧ s.dec.avg.length = s.dec.cfg.channels.length ∧
      s.dec.avg[0]? = some clock ∧ s.dec.avg[1]? = some ref ∧ n = NUM.ofNat s.dec.collected ∧
      high = NUM.div .binary64 clock n ∧ low = NUM.div .binary64 ref n ∧ NUM.eqv high low = false := by
  obtain ⟨h1, h2, h3⟩ := reads_of wcfg false true false [-160, -200, -176] 4 (-98) (-100) 0
    (by decide +kernel) (by decide +kernel) (by decide +kernel)
  exact ⟨_, _, _, _, _, _, _, _, h1, h2, rfl, h3, by decide, rfl, rfl, rfl, rfl, rfl, rfl, by decide +kernel⟩

theorem witness_DegenerateCalibrationIsUndecodable :
    ∃ s fr m clock ref n, FrameAdmitted s fr ∧ FrameReads s fr m ∧ s.dec.clockLevel = true ∧
      Level s m false ∧ s.dec.collected ≠ 0 ∧ s.dec.avg.length = s.dec.cfg.channels.length ∧
      s.dec.avg[0]? = some clock ∧ s.dec.avg[1]? = some ref ∧ n = NUM.ofNat s.dec.collected ∧
      NUM.eqv (NUM.div .binary64 clock n) (NUM.div .binary64 ref n) = true := by
  obtain ⟨h1, h2, h3⟩ := reads_of wneg false true false [-100, -100, -90] 2 (-60) (-50) 0
    (by decide +kernel) (by decide +kernel) (by decide +kernel)
  exact ⟨_, _, _, _, _, _, h1, h2, rfl, h3, by decide, rfl, rfl, rfl, rfl, by decide +kernel⟩

theorem witness_RunningSumOverflowIsRefused :
    ∃ (s : State) (fr : Frame) (m : List NUM) (c : Nat) (a x : NUM), FrameAdmitted s fr ∧ FrameReads s fr m ∧
      s.dec.clockLevel = true ∧ Level s m true ∧ s.dec.avg.length = s.dec.cfg.channels.length ∧
      s.dec.avg[c]? = some a ∧ m[c]? = some x ∧ (NUM.add .binary64 a x).isFinite = false := by
  obtain ⟨h1, h2, h3⟩ := reads_of wcfg false true true [pow2 1023, 0, 0] 1 (pow2 1023) 0 0
    (by decide +kernel) (by decide +kernel) (by decide +kernel)
  exact ⟨_, _, _, 0, _, _, h1, h2, rfl, h3, rfl, rfl, rfl, by decide +kernel⟩

/-- What the falling edge below leaves. -/
def fallen : State :=
  { stateOf wcfg true false [-160, -200, -176] 4 with
    transcript := [⟨⟨.ok, none, none⟩, [.rawFrame (fr4 [-98, -100, 0, 0]), .symbol [true]], []⟩] }

/-- A falling edge with the observer given: one FRAME that is admitted, answers a next state, and emits a symbol. -/
theorem frame_falls : ∃ (s t : State) (fr : Frame) (r : Reply), FrameAdmitted s fr ∧ s.dec.rawEn = true ∧
    exec (.frame fr) s = .next t ∧ t.transcript = s.transcript ++ [r] ∧ .symbol [true] ∈ r.events := by
  obtain ⟨h1, -, -⟩ := reads_of wcfg true true false [-160, -200, -176] 4 (-98) (-100) 0
    (by decide +kernel) (by decide +kernel) (by decide +kernel)
  exact ⟨_, fallen, _, ⟨⟨.ok, none, none⟩, [.rawFrame (fr4 [-98, -100, 0, 0]), .symbol [true]], []⟩, h1, rfl,
    nextOf_some (by decide +kernel), rfl, by simp⟩

theorem witness_RawFrameComesFirstAndOnce :
    (∃ (s t : State) (fr : Frame), exec (.frame fr) s = .next t ∧ FrameAdmitted s fr ∧ s.dec.rawEn = true) ∧
    ∃ (s t : State) (fr : Frame), exec (.frame fr) s = .next t ∧ ¬ FrameAdmitted s fr := by
  obtain ⟨s, t, fr, r, h1, h2, h3, -⟩ := frame_falls
  exact ⟨⟨s, t, fr, h3, h1, h2⟩, State.reset, _, [], rfl, by simp [FrameAdmitted, State.reset, Dec.reset]⟩

theorem witness_SymbolsOnlyAtFallingEdges :
    ∃ (i : Instr) (s t : State) (r : Reply) (bits : Symbol), exec i s = .next t ∧
      t.transcript = s.transcript ++ [r] ∧ .symbol bits ∈ r.events := by
  obtain ⟨s, t, fr, r, -, -, h3, h4, h5⟩ := frame_falls
  exact ⟨_, s, t, r, _, h3, h4, h5⟩

theorem witness_CollectedGrowsOnlyWhileHigh :
    ∃ (i : Instr) (s t : State), exec i s = .next t ∧ s.dec.collected < t.dec.collected :=
  ⟨.frame (fr4 [-40, -50, -44, 0]), stateOf wcfg false true [0, 0, 0] 0,
    { stateOf wcfg false true [-40, -50, -44] 1 with transcript := [⟨⟨.ok, none, none⟩, [], []⟩] },
    nextOf_some (by decide +kernel), by decide⟩

/-- A run whose sums over every prefix are finite, and one whose first sum overflows. -/
theorem witness_HeldHighRunSumsLeftToRight :
    (∃ (s : State) (frames : List Frame) (ms : List (List NUM)),
      s.incoming = frames.map (fun fr => .command (encode (.frame fr))) ++ [] ∧ s.dec.clockLevel = true ∧
      s.dec.avg.length = s.dec.cfg.channels.length ∧ frames.length = 2 ∧
      List.Forall₂ (fun fr m => FrameAdmitted s fr ∧ FrameReads s fr m ∧ Level s m true) frames ms ∧
      ∀ (c k : Nat) (a : NUM), s.dec.avg[c]? = some a → 1 ≤ k → k ≤ frames.length →
        (sumLeft (ms.take k) c a).isFinite = true) ∧
    ∃ (s : State) (frames : List Frame) (ms : List (List NUM)),
      s.incoming = frames.map (fun fr => .command (encode (.frame fr))) ++ [] ∧ s.dec.clockLevel = true ∧
      s.dec.avg.length = s.dec.cfg.channels.length ∧
      List.Forall₂ (fun fr m => FrameAdmitted s fr ∧ FrameReads s fr m ∧ Level s m true) frames ms ∧
      ∃ (c k : Nat) (a : NUM), s.dec.avg[c]? = some a ∧ 1 ≤ k ∧ k ≤ frames.length ∧
        (sumLeft (ms.take k) c a).isFinite = false := by
  constructor
  · obtain ⟨h1, h2, h3⟩ := reads_of wcfg false true true [0, 0, 0] 0 (-40) (-50) (-44)
      (by decide +kernel) (by decide +kernel) (by decide +kernel)
    refine ⟨{ stateOf wcfg false true [0, 0, 0] 0 with
        incoming := [fr4 [-40, -50, -44, 0], fr4 [-40, -50, -44, 0]].map (fun fr => .command (encode (.frame fr))) ++ [] },
      [fr4 [-40, -50, -44, 0], fr4 [-40, -50, -44, 0]], [fr4 [-40, -50, -44], fr4 [-40, -50, -44]], rfl, rfl, rfl, rfl,
      .cons ⟨h1, h2, h3⟩ (.cons ⟨h1, h2, h3⟩ .nil), ?_⟩
    intro c k a ha hk1 hk2
    have key : ∀ c ∈ [0, 1, 2], ∀ k ∈ [1, 2],
        (sumLeft ([fr4 [-40, -50, -44], fr4 [-40, -50, -44]].take k) c (.fin 0)).isFinite = true := by decide +kernel
    have hk : k ∈ [1, 2] := by
      have : k ≤ 2 := hk2
      simp; omega
    rcases c with _ | _ | _ | c <;> simp [stateOf] at ha <;> subst ha <;> exact key _ (by simp) k hk
  · obtain ⟨h1, h2, h3⟩ := reads_of wcfg false true true [pow2 1023, 0, 0] 1 (pow2 1023) 0 0
      (by decide +kernel) (by decide +kernel) (by decide +kernel)
    exact ⟨{ stateOf wcfg false true [pow2 1023, 0, 0] 1 with
        incoming := [fr4 [pow2 1023, 0, 0, 0]].map (fun fr => .command (encode (.frame fr))) ++ [] },
      [fr4 [pow2 1023, 0, 0, 0]], [fr4 [pow2 1023, 0, 0]], rfl, rfl, rfl, .cons ⟨h1, h2, h3⟩ .nil,
      0, 1, .fin (pow2 1023), rfl, by decide, by decide, by decide +kernel⟩

/-- A rising edge and a held-low frame, each with the clock low before. -/
theorem witness_StaleSumsAreNeverRead :
    (∃ (s t : State) (fr : Frame), s.dec.clockLevel = false ∧ exec (.frame fr) s = .next t ∧ t.dec.clockLevel = true) ∧
    ∃ (s t : State) (fr : Frame), s.dec.clockLevel = false ∧ exec (.frame fr) s = .next t ∧ t.dec.clockLevel = false :=
  ⟨⟨stateOf wcfg false false [1, 2, 3] 4,
      { stateOf wcfg false true [0, 0, 0] 0 with transcript := [⟨⟨.ok, none, none⟩, [], []⟩] },
      fr4 [-40, -50, -44, 0], rfl, nextOf_some (by decide +kernel), rfl⟩,
    ⟨stateOf wcfg false false [1, 2, 3] 4,
      { stateOf wcfg false false [1, 2, 3] 4 with transcript := [⟨⟨.ok, none, none⟩, [], []⟩] },
      fr4 [-98, -100, -44, 0], rfl, nextOf_some (by decide +kernel), rfl⟩⟩

theorem witness_BitIsTheNearerLevelInExactArithmetic : (0 : Rat) < 4 ∧ (-50 : Rat) ≠ -40 := by norm_num

theorem witness_NoDegenerateWindowInExactArithmetic :
    (0 : Rat) ≤ 6 ∧ [((-40 : Rat), (-50 : Rat))] ≠ [] ∧
    ∀ m ∈ [((-40 : Rat), (-50 : Rat))], clockLevelOf .exact (.fin m.1) (.fin m.2) (.fin 6) = true := by
  decide +kernel

/-! ## ENC -/

theorem witness_EcfgChecksThenStartsAFreshEncoder :
    (∀ cs ∈ [[1000], [1000, 1000], [1000, 99999]],
      (Instr.ecfg { encA with channels := chans cs }).operandsFinite Config.build = true ∧
      (Instr.ecfg { encA with channels := chans cs }).payloadOk Config.build = true) ∧
    (chans [1000]).length < 2 ∧
    (2 ≤ (chans [1000, 1000]).length ∧ ¬ CentersIncrease (chans [1000, 1000])) ∧
    (2 ≤ (chans [1000, 99999]).length ∧ CentersIncrease (chans [1000, 99999])) := by
  rw [centersIncrease_iff, centersIncrease_iff]
  decide +kernel

theorem witness_NotConfiguredExactlyWithoutAnInstance :
    State.reset.dec.valid = false ∧ State.reset.enc.valid = false ∧ (NUM.fin 0).isValue .binary64 = true ∧
    (∀ x ∈ fr4 [0, 0], x.isValue .binary64 = true) ∧
    ∃ (i : Instr) (t : State), exec i State.reset = .next t ∧
      ∃ r, t.transcript = State.reset.transcript ++ [r] ∧ r.response.status = .notConfigured :=
  ⟨rfl, rfl, by decide +kernel, by decide +kernel, .detach, _, rfl, errorReply .notConfigured none, rfl, rfl⟩

theorem witness_WrongSymbolLengthRejectsBeforeScheduling :
    wenc1.enc.valid = true ∧ (NUM.fin 0).isValue .binary64 = true ∧
      ¬ SymbolsFit wenc1.enc.cfg [[true], [true, false]] :=
  ⟨rfl, by decide +kernel, by simp [SymbolsFit, wenc1, Enc.fresh, wenc, chans]⟩

theorem wenc_fits : SymbolsFit wenc1.enc.cfg [[true], [false]] := by
  simp [SymbolsFit, wenc1, Enc.fresh, wenc, chans]

theorem witness_EncodeSchedulesEveryChannel :
    wenc1.enc.valid = true ∧ (NUM.fin 1000).isValue .binary64 = true ∧ 2 ≤ wenc1.enc.cfg.channels.length ∧
      SymbolsFit wenc1.enc.cfg [[true], [false]] ∧
      0 + 2 < wenc1.enc.cfg.channels.length :=
  ⟨rfl, by decide +kernel, by decide, wenc_fits, by decide⟩

theorem witness_EmptyEncodeStopsAtItsStart :
    wenc1.enc.valid = true ∧ (NUM.fin 500).isValue .binary64 = true ∧ 2 ≤ wenc1.enc.cfg.channels.length :=
  ⟨rfl, by decide +kernel, by decide⟩

theorem witness_SetpointCount : SymbolsFit wenc [[true], [false]] := wenc_fits

theorem witness_TimelineIsStrictlyOrderedInExactArithmetic :
    wenc.symbolDuration = .fin 60 ∧ wenc.symbolPause = .fin 20 ∧ (0 : Rat) < 60 + 20 ∧
      SymbolsFit wenc [[true], [false]] ∧ [[true], [false]] ≠ [] :=
  ⟨rfl, rfl, by norm_num, wenc_fits, by decide⟩

/-- Slot 1 (from 1080 up to 1160) at its first instant, the pulse of slot 1 at its first instant, the low level after the
pulse of slot 0 at its first instant, the reference at `t0`, and the stop time. -/
theorem witness_TimelinePlaysTheSymbolsInExactArithmetic :
    wenc.symbolDuration = .fin 60 ∧ wenc.symbolPause = .fin 20 ∧ (0 : Rat) < 60 + 20 ∧ 2 ≤ wenc.channels.length ∧
    SymbolsFit wenc [[true], [false]] ∧
    ([[true], [false]][1]? = some [false] ∧ [false][0]? = some false ∧
      (1000 : Rat) + (1 : Nat) * (60 + 20) ≤ 1080 ∧ (1080 : Rat) < 1000 + ((1 : Nat) + 1) * (60 + 20)) ∧
    (1 < [[true], [false]].length ∧ (1000 : Rat) + (1 : Nat) * (60 + 20) + 1 / 4 * (60 + 20) ≤ 1100 ∧
      (1100 : Rat) < 1000 + (1 : Nat) * (60 + 20) + 3 / 4 * (60 + 20)) ∧
    (0 < [[true], [false]].length ∧ (1000 : Rat) + (0 : Nat) * (60 + 20) + 3 / 4 * (60 + 20) ≤ 1060 ∧
      (1060 : Rat) < 1000 + ((0 : Nat) + 1) * (60 + 20) + 1 / 4 * (60 + 20) ∧
      (1060 : Rat) < 1000 + ([[true], [false]].length : Nat) * (60 + 20)) ∧
    ((1000 : Rat) ≤ 1000 ∧ (1000 : Rat) < 1000 + ([[true], [false]].length : Nat) * (60 + 20)) ∧
    (0 < wenc.channels.length ∧ (1000 : Rat) + ([[true], [false]].length : Nat) * (60 + 20) ≤ 1160) :=
  ⟨rfl, rfl, by norm_num, by decide, wenc_fits, ⟨rfl, rfl, by norm_num, by norm_num⟩,
    ⟨by decide, by norm_num, by norm_num⟩, ⟨by decide, by norm_num, by norm_num, by norm_num⟩,
    ⟨by norm_num, by norm_num⟩, by decide, by norm_num⟩

/-- An ENCODE of `wenc1` that answers a next state, for a sequence and for the empty sequence. -/
theorem witness_TransmittingBetweenStartAndStop :
    wenc1.enc.valid = true ∧
    ∀ symbols ∈ [[[true], [false]], []], SymbolsFit wenc1.enc.cfg symbols ∧
      ∃ t, exec (.encode symbols (.fin 1000)) wenc1 = .next t := by
  refine ⟨rfl, ?_⟩
  intro symbols h
  have hs : symbols = [[true], [false]] ∨ symbols = [] := by simpa using h
  rcases hs with rfl | rfl
  · have hk : (nextOf (exec (.encode [[true], [false]] (.fin 1000)) wenc1)).isSome = true := by decide +kernel
    obtain ⟨t, ht⟩ := Option.isSome_iff_exists.mp hk
    exact ⟨wenc_fits, t, nextOf_some ht⟩
  · have hk : (nextOf (exec (.encode [] (.fin 1000)) wenc1)).isSome = true := by decide +kernel
    obtain ⟨t, ht⟩ := Option.isSome_iff_exists.mp hk
    exact ⟨by simp [SymbolsFit], t, nextOf_some ht⟩

theorem witness_SymbolWordBits : 0 < 2 ∧ 1 < 2 := by decide

theorem witness_ChannelFramePutsEachValueAtItsBin :
    (fr4 [-40, -50, -44]).length = wcfg.channels.length ∧
    List.Pairwise (· ≠ ·) (wcfg.channels.map (channelBin .binary64 wcfg)) ∧
    (∀ ch ∈ wcfg.channels, 0 ≤ channelBin .binary64 wcfg ch ∧
      channelBin .binary64 wcfg ch < ((wcfg.transformBlockSize / 2 : Nat) : Int)) ∧
    (3 < wcfg.transformBlockSize / 2 ∧ ∀ ch ∈ wcfg.channels, channelBin .binary64 wcfg ch ≠ ((3 : Nat) : Int)) := by
  decide +kernel

/-! ## The whole machine -/

theorem witness_RejectionsChangeNothing :
    ∃ (i : Instr) (s t : State) (r : Reply), exec i s = .next t ∧ t.transcript = s.transcript ++ [r] ∧
      r.response.status ≠ .ok :=
  ⟨.detach, State.reset, _, errorReply .notConfigured none, rfl, rfl, by decide⟩

/-- A next state for each of the three commands the frame names, and for one of each unit. -/
theorem witness_CommandsWriteOnlyTheirRegisters :
    (∃ t, exec .detach (stateOf wcfg false true [1, 2, 3] 4) = .next t) ∧
    (∃ t, exec (.frame (fr4 [-40, -50, -44, 0])) (stateOf wcfg false true [1, 2, 3] 4) = .next t) ∧
    (∃ t, exec (.encode [] (.fin 1000)) wenc1 = .next t) ∧
    (∃ t, exec (.bin .one .one 1) State.reset = .next t) := by
  refine ⟨⟨_, rfl⟩, ?_, ?_, ?_⟩
  · have hk : (nextOf (exec (.frame (fr4 [-40, -50, -44, 0])) (stateOf wcfg false true [1, 2, 3] 4))).isSome = true := by
      decide +kernel
    obtain ⟨t, ht⟩ := Option.isSome_iff_exists.mp hk
    exact ⟨t, nextOf_some ht⟩
  · obtain ⟨-, h⟩ := witness_TransmittingBetweenStartAndStop
    exact (h [] (by simp)).2
  · have hk : (nextOf (exec (.bin .one .one 1) State.reset)).isSome = true := by decide +kernel
    obtain ⟨t, ht⟩ := Option.isSome_iff_exists.mp hk
    exact ⟨t, nextOf_some ht⟩

theorem witness_EachPortHasOneSource :
    (∃ (s t : State) (fr : Frame) (r : Reply), exec (.frame fr) s = .next t ∧ t.transcript = s.transcript ++ [r] ∧
      r.events ≠ []) ∧ ∃ t, exec (.encode [] (.fin 1000)) wenc1 = .next t := by
  obtain ⟨s, t, fr, r, -, -, h3, h4, h5⟩ := frame_falls
  exact ⟨⟨s, t, fr, r, h3, h4, List.ne_nil_of_mem h5⟩, witness_CommandsWriteOnlyTheirRegisters.2.2.1⟩

/-- A FRAME that sends an event, and a command that is no FRAME. -/
theorem witness_EventsPrecedeTheResponse :
    (∃ (s t : State) (fr : Frame) (r : Reply), exec (.frame fr) s = .next t ∧ t.transcript = s.transcript ++ [r] ∧
      r.events ≠ []) ∧ ∃ t, exec (.encode [] (.fin 1000)) wenc1 = .next t := witness_EachPortHasOneSource

theorem witness_UnitsAreIndependent :
    ∃ (i j : Instr) (s a b : State), i.unit = .dec ∧ j.unit = .enc ∧ exec i s = .next a ∧ exec j a = .next b ∧
      b.enc ≠ s.enc ∧ b.dec ≠ s.dec :=
  ⟨.detach, .ecfg wenc, stateOf wcfg false true [1, 2, 3] 4, _, _, rfl, rfl, rfl,
    nextOf_some (t := { stateOf wcfg false true [1, 2, 3] 4 with
      dec := { (stateOf wcfg false true [1, 2, 3] 4).dec with attached := false }
      enc := Enc.fresh wenc
      transcript := [okReply [] [], okReply [] []] }) (by decide +kernel), by decide +kernel, by decide +kernel⟩

theorem witness_ResetUnconfiguresBothUnits :
    ∃ s : State, s.incoming = .reset :: [] ∧ s.dec.valid = true :=
  ⟨{ stateOf wcfg false true [1, 2, 3] 4 with incoming := [.reset] }, rfl, rfl⟩

def freshState (moves : List HostMove) : State := { State.reset with dec := Dec.fresh wcfg false, incoming := moves }

/-- A configured decoder beside an unconfigured encoder meets the invariant. -/
theorem inv_fresh (moves : List HostMove) : (freshState moves).Inv where
  dec :=
    { unconfigured := by simp [freshState]
      twoChannels := fun _ => (by decide : 2 ≤ wcfg.channels.length)
      avgLength := fun _ => by simp [freshState]
      passesChecks := fun _ => (by decide +kernel : checkDcfg .binary64 wcfg = none)
      wellFormed := fun _ => wcfg_wellFormed
      binsInFrame := fun _ => (by decide +kernel : ∀ ch ∈ wcfg.channels,
        0 ≤ channelBin .binary64 wcfg ch ∧ channelBin .binary64 wcfg ch < (frameLength wcfg : Int))
      avgFinite := by simp [freshState]
      avgZero := by simp [freshState] }
  enc :=
    { unconfigured := fun _ => ⟨rfl, rfl⟩
      passesChecks := by simp [freshState, State.reset, Enc.reset]
      wellFormed := by simp [freshState, State.reset, Enc.reset]
      together := rfl
      startFinite := by simp [freshState, State.reset, Enc.reset] }

theorem witness_StepKeepsTheInvariant : ∃ s t : State, s.Inv ∧ step s = .next t ∧ s ≠ t :=
  ⟨_, _, inv_fresh [.command ⟨0x12#8, []⟩], rfl, by decide +kernel⟩

theorem witness_NoStepFaultsUnderTheInvariant : ∃ s : State, s.Inv ∧ s.dec.Configured :=
  ⟨_, inv_fresh [], rfl, rfl⟩

end Sys2Proof.Tests
end

section
/-! PROOFS. Statements about the numbers and the scope of the specification (00_scope.md R9; 10_state.md R23): what one
rounding of NUM does, and which commands are refused in every state. -/

namespace Sys2Proof

open Sys2Proof.Machine Sys2Proof.Claims

/-! ## The integer rounding -/

/-- The integer rounding is within one half. -/
theorem abs_sub_roundTiesEven_le (r : Rat) : |r - roundTiesEven r| ≤ 1 / 2 := by
  have hle : (r.floor : Rat) ≤ r := Int.floor_le r
  have hlt : r < r.floor + 1 := Int.lt_floor_add_one r
  rw [abs_le]
  rcases roundTiesEven_cases r with ⟨h, hd⟩ | ⟨h, hd⟩ <;> rw [h] <;> push_cast <;> constructor <;> linarith

/-- A rounding by exactly one half goes to an even integer. -/
theorem roundTiesEven_even_of_tie {r : Rat} (h : |r - roundTiesEven r| = 1 / 2) : roundTiesEven r % 2 = 0 := by
  have hd : r - r.floor = 1 / 2 := by
    rcases roundTiesEven_cases r with ⟨hk, hd⟩ | ⟨hk, hd⟩ <;> rw [hk] at h
    · have hle : (r.floor : Rat) ≤ r := Int.floor_le r
      rwa [abs_of_nonneg (sub_nonneg.mpr hle)] at h
    · have hlt : r < r.floor + 1 := Int.lt_floor_add_one r
      rw [abs_of_nonpos (by push_cast; linarith)] at h
      push_cast at h
      linarith
  have hk : roundTiesEven r = if r.floor % 2 = 0 then r.floor else r.floor + 1 := by simp [roundTiesEven, hd]
  rw [hk]
  split <;> omega

/-- No other integer is nearer than the rounding, and one that is as near shows a tie. -/
theorem roundTiesEven_nearest (r : Rat) {j : Int} (hj : j ≠ roundTiesEven r) :
    |r - roundTiesEven r| ≤ |r - j| ∧ (|r - j| = |r - roundTiesEven r| → |r - roundTiesEven r| = 1 / 2) := by
  have hk := abs_sub_roundTiesEven_le r
  have hone : (1 : Rat) ≤ |(j : Rat) - roundTiesEven r| := by
    exact_mod_cast Int.one_le_abs (sub_ne_zero.mpr hj)
  have htri : |(j : Rat) - roundTiesEven r| ≤ |r - j| + |r - roundTiesEven r| := by
    simpa [abs_sub_comm r (j : Rat)] using abs_sub_le (j : Rat) r (roundTiesEven r)
  exact ⟨by linarith, fun h => by linarith⟩

/-! ## The grid of one rounding -/

/-- The rounding to the grid is the integer rounding of the quotient by the last place. -/
theorem gridRound_eq (x : Rat) : gridRound x = (roundTiesEven (x / ulp64 x) : Rat) * ulp64 x := rfl

/-- A distance from `x` to a multiple of the last place, in units of the last place. -/
theorem abs_sub_mul_ulp64 (x : Rat) (j : Int) : |x - j * ulp64 x| = |x / ulp64 x - j| * ulp64 x := by
  have hu := ulp64_pos x
  rw [← abs_of_pos hu, ← abs_mul, abs_of_pos hu, sub_mul, div_mul_cancel₀ _ hu.ne']

/-- The rounding moves a number by at most half of its last place. -/
theorem abs_sub_gridRound_le (x : Rat) : |x - gridRound x| ≤ ulp64 x / 2 := by
  have hu := ulp64_pos x
  rw [gridRound_eq, abs_sub_mul_ulp64]
  nlinarith [abs_sub_roundTiesEven_le (x / ulp64 x)]

/-- No multiple of the last place is nearer than the rounding. -/
theorem gridRound_nearest_on_grid (x : Rat) (j : Int) : |x - gridRound x| ≤ |x - j * ulp64 x| := by
  have hu := ulp64_pos x
  rcases eq_or_ne j (roundTiesEven (x / ulp64 x)) with rfl | hj
  · exact le_rfl
  · rw [gridRound_eq, abs_sub_mul_ulp64, abs_sub_mul_ulp64]
    have := (roundTiesEven_nearest (x / ulp64 x) hj).1
    gcongr

/-- Another multiple of the last place is as near only if the rounding took an even multiple. -/
theorem roundTiesEven_even_of_grid_tie {x : Rat} {j : Int} (hj : j ≠ roundTiesEven (x / ulp64 x))
    (h : |x - j * ulp64 x| = |x - gridRound x|) : roundTiesEven (x / ulp64 x) % 2 = 0 := by
  rw [gridRound_eq, abs_sub_mul_ulp64, abs_sub_mul_ulp64] at h
  exact roundTiesEven_even_of_tie
    ((roundTiesEven_nearest _ hj).2 (mul_right_cancel₀ (ulp64_pos x).ne' h))

/-! ## The exponents around a number -/

theorem neg_1074_le_ulpExponent (x : Rat) : -1074 ≤ ulpExponent x := le_max_right _ _

/-- A number has at most 53 bits above its last place. -/
theorem abs_le_zpow_ulpExponent (x : Rat) : |x| ≤ (2 : Rat) ^ (ulpExponent x + 53) := by
  rcases eq_or_ne x 0 with rfl | hx
  · rw [abs_zero]; positivity
  · refine (binaryExponent_spec hx).2.le.trans (zpow_le_zpow_right₀ (by norm_num) ?_)
    simp only [ulpExponent]; omega

/-- Above the subnormal range a number has no fewer than 53 bits. -/
theorem zpow_ulpExponent_le_abs {x : Rat} (hx : x ≠ 0) (h : -1074 < ulpExponent x) :
    (2 : Rat) ^ (ulpExponent x + 52) ≤ |x| := by
  have he : ulpExponent x + 52 = binaryExponent x := by simp only [ulpExponent] at h ⊢; omega
  rw [he]
  exact (binaryExponent_spec hx).1

/-- A power of two no finer than the last place is a multiple of it. -/
theorem zpow_eq_mul_ulp64 {x : Rat} {e : Int} (h : ulpExponent x ≤ e) : ∃ n : Nat, (2 : Rat) ^ e = 2 ^ n * ulp64 x := by
  obtain ⟨n, hn⟩ := Int.eq_ofNat_of_zero_le (sub_nonneg.mpr h)
  refine ⟨n, ?_⟩
  rw [ulp64_eq, ← zpow_natCast, ← zpow_add₀ two_ne_zero]
  congr 1; omega

/-! ## The nearest binary64 value -/

/-- A multiple of the last place below a number in magnitude, taken on the number's side of 0, bounds how far the rounding
moves the number. -/
theorem abs_sub_gridRound_le_sub {x : Rat} (j : Int) (h : j * ulp64 x ≤ |x|) :
    |x - gridRound x| ≤ |x| - j * ulp64 x := by
  rcases le_or_gt 0 x with h0 | h0
  · rw [abs_of_nonneg h0] at h
    calc |x - gridRound x| ≤ |x - j * ulp64 x| := gridRound_nearest_on_grid x j
      _ = |x| - j * ulp64 x := by rw [abs_of_nonneg (sub_nonneg.mpr h), abs_of_nonneg h0]
  · rw [abs_of_neg h0] at h
    calc |x - gridRound x| ≤ |x - (-j : Int) * ulp64 x| := gridRound_nearest_on_grid x (-j)
      _ = |x| - j * ulp64 x := by
        rw [Int.cast_neg, neg_mul, sub_neg_eq_add, abs_of_nonpos (by linarith), abs_of_neg h0]; ring

/-- A 53-bit multiple of a power of two that is finer than the last place of `x` lies below `x`'s leading power of two. -/
theorem abs_lt_zpow_of_finer {x : Rat} {m e : Int} (hm : m.natAbs < 2 ^ 53) (he : e < ulpExponent x) :
    |(m : Rat) * (2 : Rat) ^ e| < (2 : Rat) ^ (ulpExponent x + 52) := by
  have hp : (0 : Rat) < (2 : Rat) ^ e := zpow_pos two_pos e
  have hm' : |(m : Rat)| < 2 ^ (53 : Int) := by
    rw [← Int.cast_abs, Int.abs_eq_natAbs]; exact_mod_cast hm
  calc |(m : Rat) * (2 : Rat) ^ e| = |(m : Rat)| * (2 : Rat) ^ e := by rw [abs_mul, abs_of_pos hp]
    _ < 2 ^ (53 : Int) * (2 : Rat) ^ e := by gcongr
    _ = (2 : Rat) ^ (53 + e) := (zpow_add₀ two_ne_zero _ _).symm
    _ ≤ _ := zpow_le_zpow_right₀ (by norm_num) (by omega)

/-- A binary64 value off the grid of `x` is smaller in magnitude than `x`'s leading power of two, so that power, which is
on the grid, is nearer. -/
theorem representable_on_grid_or_farther (x : Rat) {z : Rat} (hz : Representable z) :
    (∃ j : Int, z = j * ulp64 x) ∨ |x - gridRound x| < |x - z| := by
  obtain ⟨m, e, hm, he, -, rfl⟩ := hz
  rcases le_or_gt (ulpExponent x) e with hge | hlt
  · obtain ⟨n, hn⟩ := zpow_eq_mul_ulp64 hge
    exact .inl ⟨m * 2 ^ n, by rw [hn]; push_cast; ring⟩
  rcases eq_or_ne x 0 with rfl | hx
  · rcases eq_or_ne ((m : Rat) * (2 : Rat) ^ e) 0 with hz | hz
    · exact .inl ⟨0, by simpa using hz⟩
    · exact .inr (by rw [gridRound_zero, sub_self, abs_zero, zero_sub, abs_neg]; exact abs_pos.mpr hz)
  · have hlead := zpow_ulpExponent_le_abs hx (he.trans_lt hlt)
    have hz := abs_lt_zpow_of_finer hm hlt
    obtain ⟨n, hn⟩ := zpow_eq_mul_ulp64 (show ulpExponent x ≤ ulpExponent x + 52 by omega)
    have hcast : ((2 ^ n : Int) : Rat) = 2 ^ n := by push_cast; rfl
    rw [hn, ← hcast] at hlead hz
    have hnear := abs_sub_gridRound_le_sub _ hlead
    have hfar := abs_sub_abs_le_abs_sub x ((m : Rat) * (2 : Rat) ^ e)
    exact .inr (by linarith)

/-- No binary64 value is nearer than the rounding. -/
theorem gridRound_nearest (x : Rat) {z : Rat} (hz : Representable z) : |x - gridRound x| ≤ |x - z| := by
  rcases representable_on_grid_or_farther x hz with ⟨j, rfl⟩ | h
  · exact gridRound_nearest_on_grid x j
  · exact h.le

/-- A binary64 value is its own rounding. -/
theorem gridRound_of_representable {x : Rat} (hx : Representable x) : gridRound x = x := by
  have h := gridRound_nearest x hx
  rw [sub_self, abs_zero, abs_nonpos_iff, sub_eq_zero] at h
  exact h.symm

/-- Another binary64 value is as near only if the rounding took an even multiple of the last place. -/
theorem roundTiesEven_even_of_representable_tie {x z : Rat} (hz : Representable z) (hne : z ≠ gridRound x)
    (h : |x - z| = |x - gridRound x|) : roundTiesEven (x / ulp64 x) % 2 = 0 := by
  rcases representable_on_grid_or_farther x hz with ⟨j, rfl⟩ | hlt
  · exact roundTiesEven_even_of_grid_tie (fun hj => hne (by rw [hj, gridRound_eq])) h
  · exact absurd h hlt.ne'

/-! ## The end of the range -/

theorem overflow64_eq : overflow64 = (2 : Rat) ^ (1024 : Int) := pow2_eq_zpow _

/-- The overflow test of `round64` is on the magnitude of the rounding to the grid. -/
theorem round64_eq_ite (x : Rat) :
    round64 x = if |gridRound x| < overflow64 then .fin (gridRound x) else .inf (decide (x < 0)) := by
  simp only [abs_lt, and_comm (a := -overflow64 < gridRound x)]
  rfl

theorem round64_eq_fin_iff {x y : Rat} : round64 x = .fin y ↔ y = gridRound x ∧ |y| < overflow64 := by
  rw [round64_eq_ite]
  split
  · constructor
    · rintro ⟨⟩; exact ⟨rfl, ‹_›⟩
    · rintro ⟨rfl, -⟩; rfl
  · simp only [reduceCtorEq, false_iff]
    rintro ⟨rfl, h⟩
    contradiction

theorem round64_eq_inf_iff {x : Rat} {n : Bool} :
    round64 x = .inf n ↔ overflow64 ≤ |gridRound x| ∧ (n = true ↔ x < 0) := by
  rw [round64_eq_ite]
  split
  · simp [not_le.mpr ‹_›]
  · simp only [NUM.inf.injEq, not_lt.mp ‹_›, true_and]
    cases n <;> simp

/-- Below `2 ^ 1024` the last place is at most `2 ^ 971`. -/
theorem ulpExponent_le_of_abs_lt {x : Rat} (h : |x| < overflow64) : ulpExponent x ≤ 971 := by
  rcases eq_or_ne x 0 with rfl | hx
  · decide
  · rw [overflow64_eq] at h
    have := (zpow_lt_zpow_iff_right₀ (by norm_num : (1 : Rat) < 2)).mp ((binaryExponent_spec hx).1.trans_lt h)
    simp only [ulpExponent]; omega

/-- The middle between `greatest64` and `2 ^ 1024` is a tie, and the even multiple is `2 ^ 1024`. -/
theorem gridRound_overflow_threshold : gridRound (overflow64 - pow2 970) = overflow64 := by decide +kernel

theorem gridRound_neg_overflow_threshold : gridRound (-(overflow64 - pow2 970)) = -overflow64 := by decide +kernel

/-- The rounding reaches `2 ^ 1024` exactly from half a last place below it. -/
theorem overflow64_le_abs_gridRound_iff (x : Rat) :
    overflow64 ≤ |gridRound x| ↔ overflow64 - pow2 970 ≤ |x| := by
  constructor
  · intro h
    by_contra hlt
    have h970 := pow2_pos 970
    have hE : ulpExponent x ≤ 971 := ulpExponent_le_of_abs_lt (by linarith)
    have hu : ulp64 x ≤ pow2 970 * 2 := by
      rw [ulp64_eq, pow2_eq_zpow, ← zpow_add_one₀ two_ne_zero]
      exact zpow_le_zpow_right₀ (by norm_num) hE
    have hnear := abs_sub_gridRound_le x
    have htri := abs_sub_abs_le_abs_sub (gridRound x) x
    rw [abs_sub_comm] at htri
    linarith
  · intro h
    rcases le_abs.mp h with h | h
    · have := gridRound_mono h
      rw [gridRound_overflow_threshold] at this
      exact this.trans (le_abs_self _)
    · have := gridRound_mono (show x ≤ -(overflow64 - pow2 970) by linarith)
      rw [gridRound_neg_overflow_threshold] at this
      exact (le_neg.mpr this).trans (neg_le_abs _)

/-! ## A finite rounding is a binary64 value -/

/-- At most 53 bits at an admitted exponent, within the finite range. -/
theorem representable_of_multiple {m e : Int} (hm : |m| ≤ 2 ^ 53) (he : -1074 ≤ e) (he' : e ≤ 971)
    (h : |(m : Rat) * (2 : Rat) ^ e| < overflow64) : Representable ((m : Rat) * (2 : Rat) ^ e) := by
  rcases lt_or_eq_of_le hm with hlt | heq
  · exact ⟨m, e, by rw [← Int.natCast_natAbs] at hlt; exact_mod_cast hlt, he, he', rfl⟩
  · have hp : (0 : Rat) < (2 : Rat) ^ e := zpow_pos two_pos e
    have hlt : e < 971 := by
      have hmr : |(m : Rat)| = (2 : Rat) ^ (53 : Int) := by rw [← Int.cast_abs, heq]; norm_num
      rw [abs_mul, abs_of_pos hp, hmr, ← zpow_add₀ two_ne_zero, overflow64_eq,
        zpow_lt_zpow_iff_right₀ (by norm_num)] at h
      omega
    have hhalf : ∃ s : Int, m = s * 2 ∧ s.natAbs < 2 ^ 53 := by
      rcases abs_eq (by norm_num) |>.mp heq with h | h
      · exact ⟨2 ^ 52, by omega, by decide⟩
      · exact ⟨-2 ^ 52, by omega, by decide⟩
    obtain ⟨s, rfl, hs⟩ := hhalf
    refine ⟨s, e + 1, hs, by omega, by omega, ?_⟩
    rw [zpow_add_one₀ two_ne_zero]; push_cast; ring

/-- The rounded quotient has at most 53 bits, or is `2 ^ 53`. -/
theorem abs_roundTiesEven_quotient_le (x : Rat) : |roundTiesEven (x / ulp64 x)| ≤ 2 ^ 53 := by
  have hu := ulp64_pos x
  have hx : |x / ulp64 x| ≤ ((2 ^ 53 : Int) : Rat) := by
    have h := abs_le_zpow_ulpExponent x
    rw [add_comm, zpow_add₀ two_ne_zero, ← ulp64_eq] at h
    rw [abs_div, abs_of_pos hu, div_le_iff₀ hu]
    exact_mod_cast h
  obtain ⟨hlo, hhi⟩ := abs_le.mp hx
  refine abs_le.mpr ⟨?_, ?_⟩
  · have := roundTiesEven_mono (show ((-2 ^ 53 : Int) : Rat) ≤ _ by exact_mod_cast hlo)
    rwa [roundTiesEven_intCast] at this
  · have := roundTiesEven_mono hhi
    rwa [roundTiesEven_intCast] at this

theorem representable_of_round64 {x y : Rat} (h : round64 x = .fin y) : Representable y := by
  obtain ⟨rfl, hlt⟩ := round64_eq_fin_iff.mp h
  have hx : |x| < overflow64 := by
    by_contra hc
    have := (overflow64_le_abs_gridRound_iff x).mpr (by linarith [pow2_pos 970])
    exact absurd hlt (not_lt.mpr this)
  rw [gridRound_eq, ulp64_eq] at hlt ⊢
  have hk := abs_roundTiesEven_quotient_le x
  rw [ulp64_eq] at hk
  exact representable_of_multiple hk (neg_1074_le_ulpExponent x) (ulpExponent_le_of_abs_lt hx) hlt

/-- A finite rounding is unchanged by a further rounding. -/
theorem round_idem {f : NumFormat} {x y : Rat} (h : f.round x = .fin y) : f.round y = .fin y := by
  cases f with
  | exact => rfl
  | binary64 =>
    have hlt := (round64_eq_fin_iff.mp h).2
    exact round64_eq_fin_iff.mpr ⟨(gridRound_of_representable (representable_of_round64 h)).symm, hlt⟩

/-! ## The statements -/

/-- Settles O8: a binary64 value off the grid of the last place is farther than one on it, so the integer rounding of the
quotient by the last place decides; the overflow bound is the last tie of the range. -/
theorem roundingIsToTheNearestValue : Obligations.RoundingIsToTheNearestValue := by
  refine ⟨fun x y h => ?_, fun r => ⟨abs_sub_roundTiesEven_le r, roundTiesEven_even_of_tie⟩, fun x n => ?_⟩
  · have hy := representable_of_round64 h
    obtain ⟨rfl, -⟩ := round64_eq_fin_iff.mp h
    exact ⟨hy, fun z => gridRound_nearest x, _, gridRound_eq x, fun z => roundTiesEven_even_of_representable_tie⟩
  · have hbound : overflow64 - pow2 970 = (2 : Rat) ^ 1024 - 2 ^ 970 := by
      rw [overflow64_eq, pow2_eq_zpow, zpow_ofNat, zpow_ofNat]
    rw [round64_eq_inf_iff, overflow64_le_abs_gridRound_iff, hbound]

/-- Settles O9: a finite rounding is a binary64 value, and such a value is its own nearest. -/
theorem resultsAreValues : Obligations.ResultsAreValues :=
  fun _ _ y h => isValue_iff.mpr ⟨y, rfl, round_idem h⟩

end Sys2Proof

namespace Sys2Proof.Machine

/-! ## Commands outside the specification -/

theorem guarded_operandNotFinite {c : Config} {i : Instr} {m : Result} (hf : i.operandsFinite c = false) :
    guarded c i m = .refused .operandNotFinite := by simp [guarded, hf]

theorem guarded_illFormedPayload {c : Config} {i : Instr} {m : Result} (hf : i.operandsFinite c = true)
    (hp : i.payloadOk c = false) : guarded c i m = .refused .illFormedPayload := by simp [guarded, hf, hp]

/-- Every command but DETACH, which has no operand, runs behind the tests of its preconditions. -/
theorem exec_eq_guarded (i : Instr) (s : State) (hi : i ≠ .detach) : ∃ m, exec i s = guarded Config.build i m := by
  cases i with
  | detach => exact absurd rfl hi
  | bin | dcfg | frame | ecfg | encode => exact ⟨_, rfl⟩

/-- Settles O6: only DETACH runs unguarded, and it meets both preconditions. -/
theorem commandsOutsideTheSpecAreRefused : Obligations.CommandsOutsideTheSpecAreRefused := by
  intro i s
  by_cases hi : i = .detach
  · subst hi
    constructor
    · intro hf; cases hf
    · intro _ hp; cases hp
  · obtain ⟨m, hm⟩ := exec_eq_guarded i s hi
    rw [hm]
    exact ⟨guarded_operandNotFinite, guarded_illFormedPayload⟩

end Sys2Proof.Machine
end


section
/-! SUPPORT. What a command that answers a next state can do to each unit, said once (10_state.md R34): the statements
about registers, events and the invariant are case splits over these two relations. -/

namespace Sys2Proof.Machine

theorem edgeOf_eq_rising_iff (old new : Bool) : edgeOf old new = .rising ↔ old = false ∧ new = true := by
  cases old <;> cases new <;> decide

theorem edgeOf_eq_heldLow_iff (old new : Bool) : edgeOf old new = .heldLow ↔ old = false ∧ new = false := by
  cases old <;> cases new <;> decide

theorem edgeOf_eq_heldHigh_iff (old new : Bool) : edgeOf old new = .heldHigh ↔ old = true ∧ new = true := by
  cases old <;> cases new <;> decide

theorem edgeOf_eq_falling_iff (old new : Bool) : edgeOf old new = .falling ↔ old = true ∧ new = false := by
  cases old <;> cases new <;> decide

/-- What a command can do to DEC: the command, the registers before, the events it emits, the registers after. -/
inductive DecEffect : Instr → Dec → List Event → Dec → Prop where
  | keep {i : Instr} {d : Dec} : DecEffect i d [] d
  | construct {d : Dec} {p : DecConfig} {raw : Bool} (finite : p.isFinite Config.build.numFormat = true)
      (wellFormed : p.wellFormed Config.build = true) (checks : checkDcfg Config.build.numFormat p = none) :
      DecEffect (.dcfg p raw) d [] (Dec.fresh p raw)
  | detach {d : Dec} (valid : d.valid = true) : DecEffect .detach d [] { d with attached := false }
  | rise {d : Dec} {fr : Frame} (valid : d.valid = true) (low : d.clockLevel = false) :
      DecEffect (.frame fr) d (rawEvents d fr) d.risingEdge
  | stayLow {d : Dec} {fr : Frame} (valid : d.valid = true) (low : d.clockLevel = false) :
      DecEffect (.frame fr) d (rawEvents d fr) d.lowered
  | accumulate {d : Dec} {fr : Frame} {m : List NUM} (valid : d.valid = true) (high : d.clockLevel = true)
      (magnitudes : m.length = d.cfg.channels.length) (sums : d.avg.length = d.cfg.channels.length)
      (finite : ∀ a ∈ d.sums Config.build.numFormat m, a.isFinite = true) :
      DecEffect (.frame fr) d (rawEvents d fr) (d.heldHigh Config.build.numFormat m)
  | fall {d : Dec} {fr : Frame} {events : List Event} (valid : d.valid = true) (high : d.clockLevel = true)
      (symbol : d.fallingEvents Config.build.numFormat = some events) :
      DecEffect (.frame fr) d (rawEvents d fr ++ events) d.lowered

/-- What a command can do to ENC: the command, the registers before, the setpoints it writes, the registers after. -/
inductive EncEffect : Instr → Enc → List Setpoint → Enc → Prop where
  | keep {i : Instr} {e : Enc} : EncEffect i e [] e
  | construct {e : Enc} {p : EncConfig} (finite : p.isFinite Config.build.numFormat = true)
      (wellFormed : p.wellFormed Config.build = true) (checks : checkChannelList p.channels = none) :
      EncEffect (.ecfg p) e [] (Enc.fresh p)
  | transmit {e : Enc} {symbols : List Symbol} {t0 : NUM} {timeline : List Setpoint} (valid : e.valid = true)
      (start : t0.isValue Config.build.numFormat = true) (fits : symbolLengthWrong e.cfg symbols = false)
      (calls : tlWriteAll e.cfg.channels.length [] (encodeCalls Config.build.numFormat e.cfg symbols t0) =
        some timeline) :
      EncEffect (.encode symbols t0) e timeline
        { e with t0 := some t0, stop := some (stopTime Config.build.numFormat e.cfg t0 symbols.length) }

/-- A command that ended: one reply, the host's moves kept, and an effect on each unit. -/
def CommandEffect (i : Instr) (s t : State) : Prop :=
  ∃ r, t.transcript = s.transcript ++ [r] ∧ t.incoming = s.incoming ∧ DecEffect i s.dec r.events t.dec ∧
    EncEffect i s.enc r.setpoints t.enc

/-- A command that only answered touches neither unit. -/
theorem commandEffect_respond (i : Instr) (s : State) (resp : Response) :
    CommandEffect i s (s.respond ⟨resp, [], []⟩) := ⟨_, rfl, rfl, .keep, .keep⟩

theorem execDetach_effect {s t : State} (h : execDetach s = .next t) : CommandEffect .detach s t := by
  obtain ⟨-, he⟩ | ⟨hv, he⟩ := execDetach_cases s <;> rw [he] at h <;> cases h
  · exact commandEffect_respond ..
  · exact ⟨_, rfl, rfl, .detach hv, .keep⟩

theorem execFrame_effect {s t : State} {fr : Frame} (h : execFrame fr s = .next t) :
    CommandEffect (.frame fr) s t := by
  obtain ⟨-, ⟨-, rfl⟩ | ⟨-, -, rfl⟩ | ⟨-, -, -, rfl⟩ | ⟨hv, -, -, clock, ref, rest, hm, hcase⟩⟩ := frameCommand_next h
  · exact commandEffect_respond ..
  · exact commandEffect_respond ..
  · exact commandEffect_respond ..
  · obtain ⟨he, rfl⟩ | ⟨he, rfl⟩ | ⟨he, hl, hs, rfl⟩ | ⟨he, ev, hev, rfl⟩ := frameCase_next hcase
    · exact ⟨_, rfl, rfl, .rise hv ((edgeOf_eq_rising_iff ..).mp he).1, .keep⟩
    · exact ⟨_, rfl, rfl, .stayLow hv ((edgeOf_eq_heldLow_iff ..).mp he).1, .keep⟩
    · exact ⟨_, rfl, rfl, .accumulate hv ((edgeOf_eq_heldHigh_iff ..).mp he).1 ((channelMags_iff ..).mp hm).1 hl
        (List.all_eq_true.mp hs), .keep⟩
    · exact ⟨_, rfl, rfl, .fall hv ((edgeOf_eq_falling_iff ..).mp he).1 hev, .keep⟩

/-- Every command that answers a next state has one of these effects on each unit. -/
theorem exec_effect {i : Instr} {s t : State} (h : exec i s = .next t) : CommandEffect i s t := by
  cases i with
  | bin freq sr b =>
    obtain rfl := binCommand_next h
    exact commandEffect_respond ..
  | dcfg p raw =>
    obtain ⟨hf, hw, ⟨_, -, rfl⟩ | ⟨hc, rfl⟩⟩ := dcfgCommand_next h
    · exact commandEffect_respond ..
    · exact ⟨_, rfl, rfl, .construct hf hw hc, .keep⟩
  | frame fr => exact execFrame_effect h
  | detach => exact execDetach_effect h
  | ecfg p =>
    obtain ⟨hf, hw, ⟨_, -, rfl⟩ | ⟨hc, rfl⟩⟩ := ecfgCommand_next h
    · exact commandEffect_respond ..
    · exact ⟨_, rfl, rfl, .keep, .construct hf hw hc⟩
  | encode symbols t0 =>
    obtain ⟨ht0, ⟨-, rfl⟩ | ⟨-, -, rfl⟩ | ⟨hv, hw, timeline, hcalls, rfl⟩⟩ := encodeCommand_next h
    · exact commandEffect_respond ..
    · exact commandEffect_respond ..
    · exact ⟨_, rfl, rfl, .keep, .transmit hv ht0 hw hcalls⟩

/-- A step: no move left, the reset input, a command, or a reserved opcode that is only answered. -/
theorem step_next {s t : State} (h : step s = .next t) :
    t = s ∨ (∃ rest, s.incoming = .reset :: rest ∧ t = { s with incoming := rest }.assertReset) ∨
      (∃ cmd rest i, s.incoming = .command cmd :: rest ∧ decode cmd = .instr i ∧
        exec i { s with incoming := rest } = .next t) ∨
      (∃ cmd rest b, s.incoming = .command cmd :: rest ∧ decode cmd = .reserved b ∧
        t = { s with incoming := rest }.respond (rejection .illegalCmd none)) := by
  unfold step at h
  split at h
  case h_1 => cases h; exact .inl rfl
  case h_2 rest hin => cases h; exact .inr (.inl ⟨rest, hin, rfl⟩)
  case h_3 cmd rest hin =>
    split at h
    case h_1 i hi => exact .inr (.inr (.inl ⟨cmd, rest, i, hin, hi, h⟩))
    case h_2 b hb => cases h; exact .inr (.inr (.inr ⟨cmd, rest, b, hin, hb, rfl⟩))
    case h_3 => cases h

end Sys2Proof.Machine
end

section
/-! PROOFS. The invariant (10_state.md R30; 41_decoder.md R72, R73; 42_encoder.md R86, R87): it holds at reset, each
effect a command can have on a unit keeps it, so every step keeps it. -/

namespace Sys2Proof.Machine

open Sys2Proof.Claims

/-! ## The decoder -/

theorem Dec.Inv.reset : Dec.reset.Inv where
  unconfigured _ := ⟨rfl, rfl, rfl, rfl, rfl⟩
  twoChannels h := nomatch h
  avgLength h := nomatch h
  passesChecks h := nomatch h
  wellFormed h := nomatch h
  binsInFrame h := nomatch h
  avgFinite _ h := nomatch h
  avgZero _ _ h := nomatch h

theorem exists_fin_pos_of_gt_zero {x : NUM} {f : NumFormat} (hf : x.isValue f = true) (h : NUM.gt x .zero = true) :
    ∃ q, x = .fin q ∧ 0 < q := by
  obtain ⟨q, rfl, -⟩ := isValue_iff.mp hf
  exact ⟨q, rfl, by simpa using h⟩

/-- Past check 3 of R72 a well-formed configuration has every bin inside the frame: the upper bound is the check, the
lower one follows from a center and a sample rate that are not negative. -/
theorem channelBin_mem_frame {p : DecConfig} (hf : p.isFinite .binary64 = true)
    (hw : p.wellFormed Config.build = true) (hc : checkDcfg .binary64 p = none) (ch : Channel) (hch : ch ∈ p.channels) :
    0 ≤ channelBin .binary64 p ch ∧ channelBin .binary64 p ch < (frameLength p : Int) := by
  obtain ⟨-, -, hrange, -⟩ := (checkDcfg_none_iff p).mp hc
  obtain ⟨hlow, -, hbin⟩ := hrange ch hch
  refine ⟨?_, hbin⟩
  simp only [DecConfig.isFinite, DecConfig.wellFormed, Bool.and_eq_true, List.all_eq_true, Channel.isFinite,
    and_assoc] at hf hw
  obtain ⟨hsr, hchannels, -⟩ := hf
  obtain ⟨-, hpos, -⟩ := hw
  obtain ⟨sr, hsr, hpos⟩ := exists_fin_pos_of_gt_zero hsr hpos
  obtain ⟨x, hx, -⟩ := isValue_iff.mp (hchannels ch hch).1
  have hx0 : 0 ≤ x := by simpa [hx] using hlow
  rw [channelBin, hx, hsr]
  exact bin_nonneg hx0 hpos

theorem Dec.Inv.fresh {p : DecConfig} {raw : Bool} (hf : p.isFinite Config.build.numFormat = true)
    (hw : p.wellFormed Config.build = true) (hc : checkDcfg Config.build.numFormat p = none) :
    (Dec.fresh p raw).Inv where
  unconfigured h := nomatch h
  twoChannels _ := ((checkDcfg_none_iff p).mp hc).1
  avgLength _ := by simp
  passesChecks _ := hc
  wellFormed _ := ⟨hf, hw⟩
  binsInFrame _ := channelBin_mem_frame hf hw hc
  avgFinite a h := by simp [List.eq_of_mem_replicate h]
  avgZero _ _ h := List.eq_of_mem_replicate h

section
variable {d : Dec} (hd : d.Inv) (hv : d.valid = true)
include hd hv

theorem Dec.Inv.detached : { d with attached := false }.Inv :=
  { hd with unconfigured := fun h => by simp [hv] at h }

theorem Dec.Inv.lowered : d.lowered.Inv :=
  { hd with unconfigured := fun h => by simp [hv] at h }

theorem Dec.Inv.risingEdge : d.risingEdge.Inv :=
  { hd with
    unconfigured := fun h => by simp [hv] at h
    avgLength := fun _ => by simp
    avgFinite := fun a h => by simp [List.eq_of_mem_replicate h]
    avgZero := fun _ _ h => List.eq_of_mem_replicate h }

theorem Dec.Inv.heldHigh {f : NumFormat} {m : List NUM} (hm : m.length = d.cfg.channels.length)
    (hs : ∀ a ∈ d.sums f m, a.isFinite = true) : (d.heldHigh f m).Inv :=
  { hd with
    unconfigured := fun h => by simp [hv] at h
    avgLength := fun _ => by simp [Dec.sums, hm, hd.avgLength hv]
    avgFinite := hs
    avgZero := fun h => by simp at h }

end

theorem DecEffect.inv {i : Instr} {d d' : Dec} {ev : List Event} (h : DecEffect i d ev d') (hd : d.Inv) : d'.Inv := by
  cases h with
  | keep => exact hd
  | construct hf hw hc => exact .fresh hf hw hc
  | detach hv => exact hd.detached hv
  | rise hv _ => exact hd.risingEdge hv
  | stayLow hv _ => exact hd.lowered hv
  | accumulate hv _ hm _ hs => exact hd.heldHigh hv hm hs
  | fall hv _ _ => exact hd.lowered hv

/-! ## The encoder -/

theorem Enc.Inv.reset : Enc.reset.Inv where
  unconfigured _ := ⟨rfl, rfl⟩
  passesChecks h := nomatch h
  wellFormed h := nomatch h
  together := rfl
  startFinite _ h := nomatch h

theorem Enc.Inv.fresh {p : EncConfig} (hf : p.isFinite Config.build.numFormat = true)
    (hw : p.wellFormed Config.build = true) (hc : checkChannelList p.channels = none) : (Enc.fresh p).Inv where
  unconfigured h := nomatch h
  passesChecks _ := hc
  wellFormed _ := ⟨hf, hw⟩
  together := rfl
  startFinite _ h := nomatch h

theorem Enc.Inv.transmitting {e : Enc} (he : e.Inv) (hv : e.valid = true) {t0 stop : NUM}
    (ht0 : t0.isValue Config.build.numFormat = true) : { e with t0 := some t0, stop := some stop }.Inv :=
  { he with
    unconfigured := fun h => by simp [hv] at h
    together := rfl
    startFinite := fun t h => Option.some.inj h ▸ ht0 }

theorem EncEffect.inv {i : Instr} {e e' : Enc} {sp : List Setpoint} (h : EncEffect i e sp e') (he : e.Inv) : e'.Inv := by
  cases h with
  | keep => exact he
  | construct hf hw hc => exact .fresh hf hw hc
  | transmit hv ht0 _ _ => exact he.transmitting hv ht0

/-! ## The machine -/

/-- Settles O50. -/
theorem invariantHoldsAtReset : Obligations.InvariantHoldsAtReset := ⟨.reset, .reset⟩

theorem exec_keeps_inv {i : Instr} {s t : State} (hs : s.Inv) (h : exec i s = .next t) : t.Inv := by
  obtain ⟨_, -, -, hdec, henc⟩ := exec_effect h
  exact ⟨hdec.inv hs.dec, henc.inv hs.enc⟩

/-- Settles O51: a step runs a command, whose effect on each unit keeps that unit's invariant, or resets both units, or
touches neither. -/
theorem stepKeepsTheInvariant : Obligations.StepKeepsTheInvariant := by
  intro s t hs h
  obtain rfl | ⟨rest, -, rfl⟩ | ⟨_, rest, i, -, -, hexec⟩ | ⟨_, rest, _, -, -, rfl⟩ := step_next h
  · exact hs
  · exact ⟨.reset, .reset⟩
  · exact exec_keeps_inv (s := { s with incoming := rest }) ⟨hs.dec, hs.enc⟩ hexec
  · exact ⟨hs.dec, hs.enc⟩

end Sys2Proof.Machine
end

section
/-! PROOFS. What each command writes and emits (10_state.md R26, R30, R34; 60_exceptions.md R107), read off its effect on
each unit. -/

namespace Sys2Proof.Machine

open Sys2Proof.Claims

/-! ## Registers -/

theorem DecEffect.eq_of_unit_ne {i : Instr} {d d' : Dec} {ev : List Event} (h : DecEffect i d ev d')
    (hi : i.unit ≠ .dec) : d' = d := by
  cases h with
  | keep => rfl
  | construct | detach | rise | stayLow | accumulate | fall => exact absurd rfl hi

theorem EncEffect.eq_of_unit_ne {i : Instr} {e e' : Enc} {sp : List Setpoint} (h : EncEffect i e sp e')
    (hi : i.unit ≠ .enc) : e' = e := by
  cases h with
  | keep => rfl
  | construct | transmit => exact absurd rfl hi

theorem DecEffect.frame_keeps {fr : Frame} {d d' : Dec} {ev : List Event} (h : DecEffect (.frame fr) d ev d') :
    d'.cfg = d.cfg ∧ d'.valid = d.valid ∧ d'.attached = d.attached ∧ d'.rawEn = d.rawEn := by
  cases h with
  | keep | rise | stayLow | accumulate | fall => exact ⟨rfl, rfl, rfl, rfl⟩

theorem DecEffect.detach_keeps {d d' : Dec} {ev : List Event} (h : DecEffect .detach d ev d') :
    d' = { d with attached := d'.attached } := by
  cases h with
  | keep | detach => rfl

theorem EncEffect.encode_keeps {symbols : List Symbol} {t0 : NUM} {e e' : Enc} {sp : List Setpoint}
    (h : EncEffect (.encode symbols t0) e sp e') : e'.cfg = e.cfg ∧ e'.valid = e.valid := by
  cases h with
  | keep | transmit => exact ⟨rfl, rfl⟩

/-- Settles O46. -/
theorem commandsWriteOnlyTheirRegisters : Obligations.CommandsWriteOnlyTheirRegisters := by
  intro i s t h
  obtain ⟨_, -, -, hdec, henc⟩ := exec_effect h
  refine ⟨hdec.eq_of_unit_ne, henc.eq_of_unit_ne, ?_, ?_, ?_⟩
  · rintro fr rfl; exact hdec.frame_keeps
  · rintro rfl; exact hdec.detach_keeps
  · rintro symbols t0 rfl; exact henc.encode_keeps

theorem DecEffect.high_of_collected_lt {i : Instr} {d d' : Dec} {ev : List Event} (h : DecEffect i d ev d')
    (hlt : d.collected < d'.collected) :
    d.clockLevel = true ∧ d'.clockLevel = true ∧ d'.collected = d.collected + 1 ∧ ∃ fr, i = .frame fr := by
  cases h with
  | accumulate _ high => exact ⟨high, rfl, rfl, _, rfl⟩
  | construct | rise => exact absurd hlt (Nat.not_lt_zero _)
  | keep | detach | stayLow | fall => exact absurd hlt (lt_irrefl _)

/-- Settles O29: only a held-high FRAME raises the count. -/
theorem collectedGrowsOnlyWhileHigh : Obligations.CollectedGrowsOnlyWhileHigh := by
  intro i s t h hlt
  obtain ⟨_, -, -, hdec, -⟩ := exec_effect h
  exact hdec.high_of_collected_lt hlt

/-! ## Events -/

theorem not_symbol_mem_rawEvents (d : Dec) (fr : Frame) (bits : Symbol) : .symbol bits ∉ rawEvents d fr := by
  cases hr : d.rawEn <;> simp [rawEvents, hr]

/-- A symbol has one bit for each data channel. -/
theorem symbolEvent_eq_symbol {f : NumFormat} {n clock ref : NUM} {data : List NUM} {bits : Symbol}
    (h : symbolEvent f n clock ref data = .symbol bits) : bits.length = data.length := by
  unfold symbolEvent at h
  dsimp only at h
  split at h
  · cases h
  · cases h; simp

/-- A falling edge that emits a symbol emits nothing else, has collected a frame, and gives `C - 2` bits. -/
theorem fallingEvents_symbol {f : NumFormat} {d : Dec} {events : List Event} {bits : Symbol}
    (h : d.fallingEvents f = some events) (hb : .symbol bits ∈ events) :
    events = [.symbol bits] ∧ d.collected ≠ 0 ∧ bits.length + 2 = d.cfg.channels.length := by
  unfold Dec.fallingEvents at h
  split at h
  · cases h; cases hb
  next hcollected =>
    split at h
    next hlen =>
      split at h
      next clock ref data havg =>
        cases h
        have hsym := List.mem_singleton.mp hb
        refine ⟨by rw [hsym], hcollected, ?_⟩
        rw [symbolEvent_eq_symbol hsym.symm, ← hlen, havg]
        rfl
      · cases h
    · cases h

theorem DecEffect.fall_of_symbol {i : Instr} {d d' : Dec} {ev : List Event} (h : DecEffect i d ev d') {bits : Symbol}
    (hb : .symbol bits ∈ ev) :
    (∃ fr, i = .frame fr ∧ ev = rawEvents d fr ++ [.symbol bits]) ∧ d.clockLevel = true ∧ d'.clockLevel = false ∧
      d.collected ≠ 0 ∧ bits.length + 2 = d.cfg.channels.length := by
  cases h with
  | keep | construct | detach => cases hb
  | rise | stayLow | accumulate => exact absurd hb (not_symbol_mem_rawEvents _ _ _)
  | fall _ high hev =>
    have hb := (List.mem_append.mp hb).resolve_left (not_symbol_mem_rawEvents _ _ _)
    obtain ⟨rfl, hcollected, hlen⟩ := fallingEvents_symbol hev hb
    exact ⟨⟨_, rfl, rfl⟩, high, rfl, hcollected, hlen⟩

/-- Settles O28: of all effects on DEC only a falling edge emits a symbol. -/
theorem symbolsOnlyAtFallingEdges : Obligations.SymbolsOnlyAtFallingEdges := by
  intro i s t h
  obtain ⟨r, hr, -, hdec, -⟩ := exec_effect h
  exact ⟨r, hr, fun bits hb => hdec.fall_of_symbol hb⟩

end Sys2Proof.Machine
end

section
/-! PROOFS. FRAME with the clock low does not depend on the running sums and the count (10_state.md R31). -/

namespace Sys2Proof.Machine

/-! ## What FRAME answers, by its admission tests (60_exceptions.md R103) -/

section
variable {c : Config} {s : State} {fr : Frame} (hf : fr.all (NUM.isValue c.numFormat) = true)
include hf

theorem frameCommand_notConfigured (hv : s.dec.valid = false) :
    frameCommand c fr s = .next (s.respond (rejection .notConfigured none)) := by
  rw [frameCommand, guarded_eq (i := .frame fr) hf rfl]; simp [hv]

theorem frameCommand_detached (hv : s.dec.valid = true) (ha : s.dec.attached = false) :
    frameCommand c fr s = .next (s.respond (rejection .detached none)) := by
  rw [frameCommand, guarded_eq (i := .frame fr) hf rfl]; simp [hv, ha]

theorem frameCommand_wrongLength (hv : s.dec.valid = true) (ha : s.dec.attached = true)
    (hl : fr.length ≠ frameLength s.dec.cfg) :
    frameCommand c fr s = .next (s.respond (rejection .frameFault (some .length))) := by
  rw [frameCommand, guarded_eq (i := .frame fr) hf rfl]; simp [hv, ha, hl]

theorem frameCommand_admitted (hv : s.dec.valid = true) (ha : s.dec.attached = true)
    (hl : fr.length = frameLength s.dec.cfg) {clock ref : NUM} {rest : List NUM}
    (hm : channelMags c.numFormat s.dec.cfg fr s.dec.cfg.channels = some (clock :: ref :: rest)) :
    frameCommand c fr s = frameCase c fr (clock :: ref :: rest) s
      (edgeOf s.dec.clockLevel (clockLevelOf c.numFormat clock ref s.dec.cfg.decodeThreshold)) := by
  rw [frameCommand, guarded_eq (i := .frame fr) hf rfl]; simp [hv, ha, hl, admittedFrame, hm]

end

/-- Settles O31: the admission tests and the level read neither the sums nor the count; of the two cases of a low clock
the rising edge overwrites both, and held low keeps both. -/
theorem staleSumsAreNeverRead : Obligations.StaleSumsAreNeverRead := by
  intro s t fr avg collected hlow h
  have hnot : ¬ s.dec.clockLevel = true := by simp [hlow]
  obtain ⟨hf, ⟨hv, rfl⟩ | ⟨hv, ha, rfl⟩ | ⟨hv, ha, hl, rfl⟩ | ⟨hv, ha, hl, clock, ref, rest, hm, hcase⟩⟩ :=
    frameCommand_next h
  · exact ⟨_, frameCommand_notConfigured hf hv, rfl, rfl, (absurd · hnot)⟩
  · exact ⟨_, frameCommand_detached hf hv ha, rfl, rfl, (absurd · hnot)⟩
  · exact ⟨_, frameCommand_wrongLength hf hv ha hl, rfl, rfl, (absurd · hnot)⟩
  · have hexec := frameCommand_admitted
      (s := { s with dec := { s.dec with avg := avg, collected := collected } }) hf hv ha hl hm
    obtain ⟨he, rfl⟩ | ⟨he, rfl⟩ | ⟨he, -⟩ | ⟨he, -⟩ := frameCase_next hcase
    · rw [he] at hexec
      exact ⟨_, hexec, rfl, rfl, fun _ => rfl⟩
    · rw [he] at hexec
      exact ⟨_, hexec, rfl, rfl, fun hhigh => nomatch hhigh⟩
    · exact absurd ((edgeOf_eq_heldHigh_iff ..).mp he).1 hnot
    · exact absurd ((edgeOf_eq_falling_iff ..).mp he).1 hnot

end Sys2Proof.Machine
end

section
/-! PROOFS. The well-formed configuration payload, clause by clause (10_state.md R23; 00_scope.md R8, R9). -/

namespace Sys2Proof

theorem isBlockSize_iff (b : Nat) : isBlockSize b = true ↔ ∃ k, 1 ≤ k ∧ b = 2 ^ k := by
  simp only [isBlockSize, Bool.and_eq_true, decide_eq_true_eq]
  constructor
  · rintro ⟨h2, hb⟩
    exact ⟨Nat.log2 b, (Nat.le_log2 (by omega)).mpr (by simpa using h2), hb⟩
  · rintro ⟨k, hk, rfl⟩
    exact ⟨Nat.le_self_pow (by omega) 2, by rw [Nat.log2_two_pow]⟩

theorem withinLimit_iff (limit : Option Nat) (n : Nat) : withinLimit limit n = true ↔ ∀ m, limit = some m → n ≤ m := by
  cases limit <;> simp [withinLimit]

theorem isGain_fin (x : Rat) : isGain (.fin x) = true ↔ 0 ≤ x ∧ x ≤ 1 := by simp [isGain]

theorem channels_finite_iff (f : NumFormat) (channels : List Channel) :
    channels.all (Channel.isFinite f) = true ↔
      ∀ ch ∈ channels, ch.center.isValue f = true ∧ ch.gain.isValue f = true := by
  simp [Channel.isFinite]

/-- Settles O7. -/
theorem wellFormedConfigurationClauses : Obligations.WellFormedConfigurationClauses := by
  refine ⟨fun c b sr thr q sm ch raw => ?_, fun c q hi lo dur pause total ch htotal => ?_, fun c p raw => ?_,
    fun c p => ?_⟩
  · simp [Instr.payloadOk, DecConfig.wellFormed, isBlockSize_iff, withinLimit_iff, and_assoc]
  · simp only [Instr.payloadOk, EncConfig.wellFormed, htotal, Bool.and_eq_true, isGain_fin, withinLimit_iff, gt_fin,
      decide_eq_true_eq, and_assoc]
  · simp only [Instr.operandsFinite, DecConfig.isFinite, Bool.and_eq_true, channels_finite_iff, and_assoc]
  · simp only [Instr.operandsFinite, EncConfig.isFinite, Bool.and_eq_true, channels_finite_iff, and_assoc]

end Sys2Proof
end

section
/-! PROOFS. The encoder seen from outside (10_state.md R29; 42_encoder.md R95 (c)), and reset (10_state.md R33;
70_reset_and_hazards.md R114). -/

namespace Sys2Proof

theorem lt_eq_false_of_ge {a b : NUM} (h : NUM.ge a b = true) : NUM.lt a b = false := by
  cases a with
  | nan => rfl
  | fin x =>
    cases b with
    | nan => rfl
    | fin y => simpa using h
    | inf n => simpa [NUM.ge, NUM.lt, NUM.eqv] using h
  | inf n =>
    cases b with
    | nan => rfl
    | fin y => simpa [NUM.ge, NUM.lt, NUM.eqv] using h
    | inf m => cases n <;> cases m <;> trivial

end Sys2Proof

namespace Sys2Proof.Machine

open Sys2Proof.Claims

theorem symbolLengthWrong_eq_false_iff (p : EncConfig) (symbols : List Symbol) :
    symbolLengthWrong p symbols = false ↔ SymbolsFit p symbols := by
  simp [symbolLengthWrong, SymbolsFit]

/-- With both times set the encoder transmits in the half-open interval between them. -/
theorem encState_eq_transmitting_iff {e : Enc} {t0 stop : NUM} (ht0 : e.t0 = some t0) (hstop : e.stop = some stop)
    (now : NUM) : encState e now = .transmitting ↔ NUM.ge now t0 = true ∧ NUM.lt now stop = true := by
  simp [encState, ht0, hstop]

theorem encState_eq_idle_iff (e : Enc) (now : NUM) : encState e now = .idle ↔ encState e now ≠ .transmitting := by
  cases encState e now <;> simp

/-- A fitting ENCODE on a configured encoder that answers a next state sets the two times. -/
theorem exec_encode_times {s t : State} {symbols : List Symbol} {t0 : NUM} (hv : s.enc.valid = true)
    (hfit : SymbolsFit s.enc.cfg symbols) (h : exec (.encode symbols t0) s = .next t) :
    t.enc.t0 = some t0 ∧ t.enc.stop = some (stopAt s.enc.cfg t0 symbols.length) := by
  obtain ⟨-, ⟨hn, -⟩ | ⟨-, hw, -⟩ | ⟨-, -, _, -, rfl⟩⟩ := encodeCommand_next h
  · simp [hv] at hn
  · simp [(symbolLengthWrong_eq_false_iff ..).mpr hfit] at hw
  · exact ⟨rfl, rfl⟩

/-- Settles O42: the two times bound a half-open interval, which is empty when there is no symbol. -/
theorem transmittingBetweenStartAndStop : Obligations.TransmittingBetweenStartAndStop := by
  intro s t symbols t0 now hv hfit h
  obtain ⟨ht0, hstop⟩ := exec_encode_times hv hfit h
  have key := encState_eq_transmitting_iff ht0 hstop now
  refine ⟨key, ?_⟩
  rintro rfl
  rw [encState_eq_idle_iff, Ne, key]
  rintro ⟨hge, hlt⟩
  have hlt : NUM.lt now t0 = true := hlt
  simp [lt_eq_false_of_ge hge] at hlt

theorem unconfigured_assertReset (s : State) : Unconfigured s.assertReset :=
  ⟨rfl, rfl, rfl, rfl, rfl, rfl, rfl, rfl, rfl⟩

theorem step_reset {s : State} {rest : List HostMove} (h : s.incoming = .reset :: rest) :
    step s = .next { s with incoming := rest }.assertReset := by simp [step, h]

/-- Settles O49. -/
theorem resetUnconfiguresBothUnits : Obligations.ResetUnconfiguresBothUnits :=
  ⟨unconfigured_assertReset .reset, fun _ _ h => ⟨_, step_reset h, unconfigured_assertReset _, rfl, rfl⟩⟩

end Sys2Proof.Machine
end

section
/-! PROOFS. No access leaves its index space under the invariant (20_memory.md R35, R37, R42; 40_binmap.md R70): where a
command can fault at all, and what of the invariant rules each case out; and what a step does with the host's next
command. -/

namespace Sys2Proof.Machine

open Sys2Proof.Claims

/-! ## The step -/

theorem step_command {s : State} {cmd : Command} {rest : List HostMove} {i : Instr}
    (h : s.incoming = .command cmd :: rest) (hi : decode cmd = .instr i) :
    step s = exec i { s with incoming := rest } := by simp [step, h, hi]

theorem step_payloadMismatch {s : State} {cmd : Command} {rest : List HostMove} {b : Byte}
    (h : s.incoming = .command cmd :: rest) (hb : decode cmd = .payloadMismatch b) :
    step s = .refused .payloadMismatch := by simp [step, h, hb]

/-- Settles O4. -/
theorem stepRunsTheDecodedCommand : Obligations.StepRunsTheDecodedCommand :=
  fun _ _ _ h => ⟨fun _ => step_command h, fun _ => step_payloadMismatch h⟩

/-- A step faults only in the command it runs. -/
theorem step_fault {s : State} {f : Fault} (h : step s = .fault f) :
    ∃ cmd rest i, s.incoming = .command cmd :: rest ∧ decode cmd = .instr i ∧
      exec i { s with incoming := rest } = .fault f := by
  unfold step at h
  split at h
  case h_1 => cases h
  case h_2 => cases h
  case h_3 cmd rest hin =>
    split at h
    case h_1 i hi => exact ⟨cmd, rest, i, hin, hi, h⟩
    case h_2 => cases h
    case h_3 => cases h

/-! ## The commands that can fault -/

/-- BIN, DCFG, ECFG and DETACH never fault. -/
theorem exec_fault {i : Instr} {s : State} {f : Fault} (h : exec i s = .fault f) :
    (∃ fr, i = .frame fr) ∨ ∃ symbols t0, i = .encode symbols t0 := by
  cases i with
  | bin freq sr b => cases (guarded_fault h).2.2
  | dcfg p raw =>
    obtain ⟨-, -, h⟩ := guarded_fault h
    split at h <;> cases h
  | frame fr => exact .inl ⟨fr, rfl⟩
  | detach =>
    obtain ⟨-, he⟩ | ⟨-, he⟩ := execDetach_cases s <;> cases he.symm.trans h
  | ecfg p =>
    obtain ⟨-, -, h⟩ := guarded_fault h
    split at h <;> cases h
  | encode symbols t0 => exact .inr ⟨symbols, t0, rfl⟩

variable {c : Config} {s : State} {k : Fault}

/-- FRAME faults only past its admission tests. -/
theorem frameCommand_fault {fr : Frame} (h : frameCommand c fr s = .fault k) :
    s.dec.valid = true ∧ fr.length = frameLength s.dec.cfg ∧ admittedFrame c fr s = .fault k := by
  obtain ⟨-, -, h⟩ := guarded_fault h
  split at h
  · cases h
  next hv =>
    split at h
    · cases h
    · split at h
      · cases h
      next hl => exact ⟨by simpa using hv, not_not.mp hl, h⟩

/-- ENCODE faults only past its checks. -/
theorem encodeCommand_fault {symbols : List Symbol} {t0 : NUM} (h : encodeCommand c symbols t0 s = .fault k) :
    s.enc.valid = true ∧ SymbolsFit s.enc.cfg symbols ∧ schedule c symbols t0 s = .fault k := by
  obtain ⟨-, -, h⟩ := guarded_fault h
  split at h
  · cases h
  next hv =>
    split at h
    · cases h
    next hw => exact ⟨by simpa using hv, (symbolLengthWrong_eq_false_iff ..).mp (by simpa using hw), h⟩

/-! ## FRAME: `MagRead` and the running sums -/

/-- Inside the frame `MagRead` has a result (20_memory.md R37). -/
theorem exists_magRead {fr : Frame} {j : Int} (h0 : 0 ≤ j) (hl : j < fr.length) : ∃ x, magRead fr j = some x :=
  ⟨_, (magRead_iff ..).mpr ⟨h0, List.getElem?_eq_getElem (by omega)⟩⟩

/-- With every channel's bin inside the frame every channel has a magnitude. -/
theorem exists_channelMags {f : NumFormat} {p : DecConfig} {fr : Frame} {channels : List Channel}
    (h : ∀ ch ∈ channels, 0 ≤ channelBin f p ch ∧ channelBin f p ch < fr.length) :
    ∃ m, channelMags f p fr channels = some m := by
  induction channels with
  | nil => exact ⟨[], rfl⟩
  | cons ch rest ih =>
    obtain ⟨hch, hrest⟩ := List.forall_mem_cons.mp h
    obtain ⟨x, hx⟩ := exists_magRead hch.1 hch.2
    obtain ⟨m, hm⟩ := ih hrest
    exact ⟨x :: m, by simp [channelMags, channelMag, hx, hm]⟩

/-- A list of at least two elements, as the cases of FRAME take it apart. -/
theorem exists_cons_cons_of_two_le_length {α : Type} {l : List α} (h : 2 ≤ l.length) :
    ∃ a b rest, l = a :: b :: rest := by
  match l, h with
  | a :: b :: rest, _ => exact ⟨a, b, rest, rfl⟩

/-- With one running sum for each of at least two channels a falling edge finds the sums it reads. -/
theorem exists_fallingEvents {f : NumFormat} {d : Dec} (h2 : 2 ≤ d.cfg.channels.length)
    (havg : d.avg.length = d.cfg.channels.length) : ∃ ev, d.fallingEvents f = some ev := by
  obtain ⟨clock, ref, data, hd⟩ := exists_cons_cons_of_two_le_length (havg ▸ h2)
  by_cases hc : d.collected = 0
  · exact ⟨[], by simp [Dec.fallingEvents, hc]⟩
  · exact ⟨[symbolEvent f (NUM.ofNat d.collected) clock ref data], by
      rw [Dec.fallingEvents, if_neg hc, if_pos havg, hd]⟩

theorem frameCase_ne_fault {fr : Frame} {m : List NUM} (e : Edge) (h2 : 2 ≤ s.dec.cfg.channels.length)
    (havg : s.dec.avg.length = s.dec.cfg.channels.length) : frameCase c fr m s e ≠ .fault k := by
  cases e with
  | rising => simp [frameCase]
  | heldLow => simp [frameCase]
  | heldHigh =>
    simp only [frameCase, if_pos havg]
    split <;> simp
  | falling =>
    obtain ⟨ev, hev⟩ := exists_fallingEvents (f := c.numFormat) h2 havg
    simp [frameCase, hev]

/-- "No admitted FRAME ever calls `MagRead` outside the range" (20_memory.md R37), and none misses a running sum. -/
theorem admittedFrame_ne_fault {fr : Frame} (h2 : 2 ≤ s.dec.cfg.channels.length)
    (havg : s.dec.avg.length = s.dec.cfg.channels.length)
    (hbins : ∀ ch ∈ s.dec.cfg.channels,
      0 ≤ channelBin c.numFormat s.dec.cfg ch ∧ channelBin c.numFormat s.dec.cfg ch < fr.length) :
    admittedFrame c fr s ≠ .fault k := by
  obtain ⟨m, hm⟩ := exists_channelMags hbins
  have hlen : 2 ≤ m.length := ((channelMags_iff ..).mp hm).1 ▸ h2
  obtain ⟨clock, ref, rest, rfl⟩ := exists_cons_cons_of_two_le_length hlen
  simp only [admittedFrame, hm]
  exact frameCase_ne_fault _ h2 havg

theorem Dec.Inv.frame_ne_fault (hs : s.dec.Inv) (fr : Frame) : execFrame fr s ≠ .fault k := by
  intro h
  obtain ⟨hv, hl, h⟩ := frameCommand_fault h
  exact admittedFrame_ne_fault (hs.twoChannels hv) (hs.avgLength hv) (hl ▸ hs.binsInFrame hv) h

/-! ## ENCODE: `TlWrite` -/

section
variable {f : NumFormat} {p : EncConfig} {t0 : NUM} {q : Setpoint}

theorem channel_lt_of_mem_dataCalls {t : NUM} {j : Nat} {sym : Symbol} (hq : q ∈ dataCalls p t j sym) :
    q.c < j + sym.length + 2 := by
  induction sym generalizing j with
  | nil => cases hq
  | cons b rest ih =>
    rw [List.length_cons]
    obtain rfl | hq := List.mem_cons.mp hq
    · simp only [DATA]; omega
    · have := ih hq; omega

theorem channel_lt_of_mem_slotCalls {i : Nat} {sym : Symbol} (hfit : sym.length + 2 = p.channels.length)
    (hq : q ∈ slotCalls f p t0 i sym) : q.c < p.channels.length := by
  obtain hq | hq := List.mem_append.mp hq
  · have := channel_lt_of_mem_dataCalls hq
    omega
  · have hclk : q.c = CLK := by
      obtain rfl | hq := List.mem_cons.mp hq
      · rfl
      · rw [List.mem_singleton.mp hq]
    rw [hclk, CLK]; omega

theorem channel_lt_of_mem_slotsCalls {i : Nat} {symbols : List Symbol} (hfit : SymbolsFit p symbols)
    (hq : q ∈ slotsCalls f p t0 i symbols) : q.c < p.channels.length := by
  induction symbols generalizing i with
  | nil => cases hq
  | cons sym rest ih =>
    obtain ⟨hsym, hrest⟩ := List.forall_mem_cons.mp hfit
    obtain hq | hq := List.mem_append.mp hq
    · exact channel_lt_of_mem_slotCalls hsym hq
    · exact ih hrest hq

theorem channel_lt_of_mem_shutdownCalls {count : Nat} {stop : NUM} (hq : q ∈ shutdownCalls count stop) : q.c < count := by
  obtain ⟨ch, hch, rfl⟩ := List.mem_map.mp hq
  exact List.mem_range.mp hch

/-- Every `TlWrite` of an ENCODE past its checks names a channel that exists (20_memory.md R42). -/
theorem channel_lt_of_mem_encodeCalls {symbols : List Symbol} (h2 : 2 ≤ p.channels.length) (hfit : SymbolsFit p symbols)
    (hq : q ∈ encodeCalls f p symbols t0) : q.c < p.channels.length := by
  obtain rfl | hq := List.mem_cons.mp hq
  · exact h2
  · obtain hq | hq := List.mem_append.mp hq
    · exact channel_lt_of_mem_slotsCalls hfit hq
    · exact channel_lt_of_mem_shutdownCalls hq

theorem tlWriteAll_encodeCalls {symbols : List Symbol} (h2 : 2 ≤ p.channels.length) (hfit : SymbolsFit p symbols) :
    tlWriteAll p.channels.length [] (encodeCalls f p symbols t0) = some (encodeCalls f p symbols t0) := by
  rw [tlWriteAll_eq, if_pos fun _ hq => channel_lt_of_mem_encodeCalls h2 hfit hq, List.nil_append]

end

theorem two_le_length_of_checkChannelList {channels : List Channel} (h : checkChannelList channels = none) :
    2 ≤ channels.length := by
  unfold checkChannelList at h
  split at h
  · cases h
  next hlen => exact Nat.le_of_not_lt hlen

theorem Enc.Inv.encode_ne_fault (hs : s.enc.Inv) (symbols : List Symbol) (t0 : NUM) :
    execEncode symbols t0 s ≠ .fault k := by
  intro h
  obtain ⟨hv, hfit, h⟩ := encodeCommand_fault h
  have h2 := two_le_length_of_checkChannelList (hs.passesChecks hv)
  simp [schedule, tlWriteAll_encodeCalls h2 hfit] at h

/-! ## The machine -/

theorem State.Inv.exec_ne_fault (hs : s.Inv) (i : Instr) : exec i s ≠ .fault k := by
  intro h
  obtain ⟨fr, rfl⟩ | ⟨symbols, t0, rfl⟩ := exec_fault h
  · exact hs.dec.frame_ne_fault fr h
  · exact hs.enc.encode_ne_fault symbols t0 h

/-- Settles O52: a step faults only in a FRAME or an ENCODE that has passed its tests; the invariant puts every bin
inside the frame and gives every channel its running sum, and the length test of ENCODE keeps every write on a channel. -/
theorem noStepFaultsUnderTheInvariant : Obligations.NoStepFaultsUnderTheInvariant := by
  intro s f hs h
  obtain ⟨_, rest, i, -, -, h⟩ := step_fault h
  exact State.Inv.exec_ne_fault (s := { s with incoming := rest }) ⟨hs.dec, hs.enc⟩ i h

end Sys2Proof.Machine
end

section
/-! PROOFS. The units are independent (20_memory.md R46 (c); 10_state.md R34): what a command of one unit answers depends
on that unit's registers only, and it writes no others. -/

namespace Sys2Proof.Machine

open Sys2Proof.Claims

/-! ## What DCFG, ECFG and ENCODE answer, by their checks (60_exceptions.md R103) -/

section
variable {c : Config} {s : State} {p : DecConfig} (raw : Bool) (hf : p.isFinite c.numFormat = true)
  (hw : p.wellFormed c = true)
include hf hw

theorem dcfgCommand_rejected {ca : Cause} (hc : checkDcfg c.numFormat p = some ca) :
    dcfgCommand c p raw s = .next (s.respond (rejection .configError (some ca))) := by
  rw [dcfgCommand, guarded_eq (i := .dcfg p raw) hf hw, hc]; rfl

theorem dcfgCommand_fresh (hc : checkDcfg c.numFormat p = none) :
    dcfgCommand c p raw s =
      .next (State.respond ⟨⟨.ok, none, none⟩, [], []⟩ { s with dec := Dec.fresh p raw }) := by
  rw [dcfgCommand, guarded_eq (i := .dcfg p raw) hf hw, hc]; rfl

end

section
variable {c : Config} {s : State} {p : EncConfig} (hf : p.isFinite c.numFormat = true) (hw : p.wellFormed c = true)
include hf hw

theorem ecfgCommand_rejected {ca : Cause} (hc : checkChannelList p.channels = some ca) :
    ecfgCommand c p s = .next (s.respond (rejection .configError (some ca))) := by
  rw [ecfgCommand, guarded_eq (i := .ecfg p) hf hw, hc]; rfl

theorem ecfgCommand_fresh (hc : checkChannelList p.channels = none) :
    ecfgCommand c p s = .next (State.respond ⟨⟨.ok, none, none⟩, [], []⟩ { s with enc := Enc.fresh p }) := by
  rw [ecfgCommand, guarded_eq (i := .ecfg p) hf hw, hc]; rfl

end

section
variable {c : Config} {s : State} {symbols : List Symbol} {t0 : NUM} (hf : t0.isValue c.numFormat = true)
  (hn : withinLimit c.nMax symbols.length = true)
include hf hn

theorem encodeCommand_notConfigured (hv : s.enc.valid = false) :
    encodeCommand c symbols t0 s = .next (s.respond (rejection .notConfigured none)) := by
  rw [encodeCommand, guarded_eq (i := .encode symbols t0) hf hn]; simp [hv]

theorem encodeCommand_wrongLength (hv : s.enc.valid = true) (hl : symbolLengthWrong s.enc.cfg symbols = true) :
    encodeCommand c symbols t0 s = .next (s.respond (rejection .configError (some .symbolLength))) := by
  rw [encodeCommand, guarded_eq (i := .encode symbols t0) hf hn]; simp [hv, hl]

theorem encodeCommand_scheduled (hv : s.enc.valid = true) (hl : symbolLengthWrong s.enc.cfg symbols = false)
    {timeline : List Setpoint}
    (hcalls : tlWriteAll s.enc.cfg.channels.length [] (encodeCalls c.numFormat s.enc.cfg symbols t0) = some timeline) :
    encodeCommand c symbols t0 s = .next (State.respond ⟨⟨.ok, none, none⟩, [], timeline⟩
      { s with enc :=
          { s.enc with t0 := some t0, stop := some (stopTime c.numFormat s.enc.cfg t0 symbols.length) } }) := by
  rw [encodeCommand, guarded_eq (i := .encode symbols t0) hf hn]; simp [hv, hl, schedule, hcalls]

end

/-! ## A command that sees one unit -/

/-- With DEC's registers `d` the command answers with the reply `r` and leaves them `d'`, whatever the rest of the state,
which it keeps. -/
def AnswersOnDec (i : Instr) (d d' : Dec) (r : Reply) : Prop :=
  ∀ s : State, s.dec = d → exec i s = .next (State.respond r { s with dec := d' })

/-- With ENC's registers `e` the command answers with the reply `r` and leaves them `e'`, whatever the rest of the state,
which it keeps. -/
def AnswersOnEnc (j : Instr) (e e' : Enc) (r : Reply) : Prop :=
  ∀ s : State, s.enc = e → exec j s = .next (State.respond r { s with enc := e' })

theorem AnswersOnDec.of_respond {i : Instr} {d : Dec} {r : Reply}
    (h : ∀ s : State, s.dec = d → exec i s = .next (s.respond r)) : AnswersOnDec i d d r := by
  rintro s rfl; exact h s rfl

theorem AnswersOnEnc.of_respond {j : Instr} {e : Enc} {r : Reply}
    (h : ∀ s : State, s.enc = e → exec j s = .next (s.respond r)) : AnswersOnEnc j e e r := by
  rintro s rfl; exact h s rfl

/-! ## The commands of DEC -/

/-- The case of an admitted frame reads DEC's registers only. -/
theorem frameCase_answersOnDec {c : Config} {fr : Frame} {m : List NUM} {e : Edge} {s t : State}
    (h : frameCase c fr m s e = .next t) :
    ∃ r, ∀ s' : State, s'.dec = s.dec →
      frameCase c fr m s' e = .next (State.respond r { s' with dec := t.dec }) := by
  obtain ⟨rfl, rfl⟩ | ⟨rfl, rfl⟩ | ⟨rfl, hl, hs, rfl⟩ | ⟨rfl, ev, hev, rfl⟩ := frameCase_next h
  · exact ⟨okReply (rawEvents s.dec fr) [], fun s' hs' => by rw [frameCase, hs']; rfl⟩
  · exact ⟨okReply (rawEvents s.dec fr) [], fun s' hs' => by rw [frameCase, hs']; rfl⟩
  · exact ⟨okReply (rawEvents s.dec fr) [], fun s' hs' => by rw [frameCase, hs', if_pos hl, if_pos hs]; rfl⟩
  · exact ⟨okReply (rawEvents s.dec fr ++ ev) [], fun s' hs' => by simp only [frameCase, hs', hev]; rfl⟩

theorem frame_answersOnDec {fr : Frame} {s t : State} (h : exec (.frame fr) s = .next t) :
    ∃ r, AnswersOnDec (.frame fr) s.dec t.dec r := by
  obtain ⟨hf, ⟨hv, rfl⟩ | ⟨hv, ha, rfl⟩ | ⟨hv, ha, hl, rfl⟩ | ⟨hv, ha, hl, clock, ref, rest, hm, hcase⟩⟩ :=
    frameCommand_next h
  · exact ⟨_, .of_respond fun s' hs' => frameCommand_notConfigured hf (hs' ▸ hv)⟩
  · exact ⟨_, .of_respond fun s' hs' => frameCommand_detached hf (hs' ▸ hv) (hs' ▸ ha)⟩
  · exact ⟨_, .of_respond fun s' hs' => frameCommand_wrongLength hf (hs' ▸ hv) (hs' ▸ ha) (hs' ▸ hl)⟩
  · obtain ⟨r, hr⟩ := frameCase_answersOnDec hcase
    refine ⟨r, fun s' hs' => ?_⟩
    rw [← hr s' hs', ← hs']
    exact frameCommand_admitted hf (hs' ▸ hv) (hs' ▸ ha) (hs' ▸ hl) (hs' ▸ hm)

theorem dcfg_answersOnDec {p : DecConfig} {raw : Bool} {s t : State} (h : exec (.dcfg p raw) s = .next t) :
    ∃ r, AnswersOnDec (.dcfg p raw) s.dec t.dec r := by
  obtain ⟨hf, hw, ⟨ca, hc, rfl⟩ | ⟨hc, rfl⟩⟩ := dcfgCommand_next h
  · exact ⟨_, .of_respond fun _ _ => dcfgCommand_rejected raw hf hw hc⟩
  · exact ⟨_, fun _ _ => dcfgCommand_fresh raw hf hw hc⟩

theorem detach_answersOnDec {s t : State} (h : exec .detach s = .next t) :
    ∃ r, AnswersOnDec .detach s.dec t.dec r := by
  obtain ⟨hv, he⟩ | ⟨hv, he⟩ := execDetach_cases s <;> cases he.symm.trans h
  · exact ⟨_, .of_respond fun s' hs' => if_pos (hs' ▸ hv)⟩
  · exact ⟨_, fun s' hs' => by rw [respond_dec, ← hs']; exact if_neg (by simp [hs', hv])⟩

theorem exists_answersOnDec {i : Instr} {s t : State} (hi : i.unit = .dec) (h : exec i s = .next t) :
    ∃ r, AnswersOnDec i s.dec t.dec r := by
  cases i with
  | dcfg p raw => exact dcfg_answersOnDec h
  | frame fr => exact frame_answersOnDec h
  | detach => exact detach_answersOnDec h
  | bin | ecfg | encode => cases hi

/-! ## The commands of ENC -/

theorem ecfg_answersOnEnc {p : EncConfig} {s t : State} (h : exec (.ecfg p) s = .next t) :
    ∃ r, AnswersOnEnc (.ecfg p) s.enc t.enc r := by
  obtain ⟨hf, hw, ⟨ca, hc, rfl⟩ | ⟨hc, rfl⟩⟩ := ecfgCommand_next h
  · exact ⟨_, .of_respond fun _ _ => ecfgCommand_rejected hf hw hc⟩
  · exact ⟨_, fun _ _ => ecfgCommand_fresh hf hw hc⟩

theorem encode_answersOnEnc {symbols : List Symbol} {t0 : NUM} {s t : State} (h : exec (.encode symbols t0) s = .next t) :
    ∃ r, AnswersOnEnc (.encode symbols t0) s.enc t.enc r := by
  obtain ⟨hf, ⟨hv, rfl⟩ | ⟨hv, hl, rfl⟩ | ⟨hv, hl, timeline, hcalls, rfl⟩⟩ := encodeCommand_next h
  · exact ⟨_, .of_respond fun s' hs' => encodeCommand_notConfigured hf rfl (hs' ▸ hv)⟩
  · exact ⟨_, .of_respond fun s' hs' => encodeCommand_wrongLength hf rfl (hs' ▸ hv) (hs' ▸ hl)⟩
  · refine ⟨okReply [] timeline, fun s' hs' => ?_⟩
    rw [respond_enc, ← hs']
    exact encodeCommand_scheduled hf rfl (hs' ▸ hv) (hs' ▸ hl) (hs' ▸ hcalls)

theorem exists_answersOnEnc {j : Instr} {s t : State} (hj : j.unit = .enc) (h : exec j s = .next t) :
    ∃ r, AnswersOnEnc j s.enc t.enc r := by
  cases j with
  | ecfg p => exact ecfg_answersOnEnc h
  | encode symbols t0 => exact encode_answersOnEnc h
  | bin | dcfg | frame | detach => cases hj

/-! ## Both orders -/

/-- Settles O48: each of the two commands finds the registers of its own unit as it would in the other order, so it gives
the same reply and leaves the same registers. -/
theorem unitsAreIndependent : Obligations.UnitsAreIndependent := by
  intro i j s a b hi hj ha hb
  obtain ⟨ri, hri⟩ := exists_answersOnDec hi ha
  obtain ⟨rj, hrj⟩ := exists_answersOnEnc hj hb
  have haeq := Host.Outcome.next.inj (ha.symm.trans (hri s rfl))
  have hbeq := Host.Outcome.next.inj (hb.symm.trans (hrj a rfl))
  have haenc : s.enc = a.enc := by rw [haeq]; rfl
  have hbdec : a.dec = b.dec := by rw [hbeq]; rfl
  refine ⟨_, _, ri, rj, hrj s haenc, hri _ rfl, hbdec, rfl, ?_, ?_⟩
  · rw [hbeq, haeq]; simp
  · simp

end Sys2Proof.Machine
end

section
/-! PROOFS. The timeline of an ENCODE played as a step function (20_memory.md R43; 42_encoder.md R90 to R94): what each
part of it writes on each channel, and that at any time only the current slot counts. -/

namespace Sys2Proof.Machine

/-! ## The setpoints of each channel -/

section
variable (f : NumFormat) (p : EncConfig) (t0 : NUM) (i : Nat)

theorem slotsCalls_append (a b : List Symbol) :
    slotsCalls f p t0 i (a ++ b) = slotsCalls f p t0 i a ++ slotsCalls f p t0 (i + a.length) b := by
  induction a generalizing i with
  | nil => rfl
  | cons sym rest ih =>
    simp only [List.cons_append, slotsCalls, ih, List.append_assoc, List.length_cons, Nat.add_assoc, Nat.add_comm 1]

/-- A slot pulses the clock once (42_encoder.md R91). -/
theorem channelTimeline_slotCalls_clock (sym : Symbol) :
    channelTimeline (slotCalls f p t0 i sym) 0 =
      [(riseTime f p t0 i, p.encodeGainHigh), (fallTime f p t0 i, p.encodeGainLow)] := by
  simp [slotCalls, channelTimeline_dataCalls, channelTimeline_cons, CLK]

/-- A slot writes nothing on the reference channel (42_encoder.md R92). -/
theorem channelTimeline_slotCalls_ref (sym : Symbol) : channelTimeline (slotCalls f p t0 i sym) 1 = [] := by
  simp [slotCalls, channelTimeline_dataCalls, channelTimeline_cons, CLK]

/-- A slot writes the level of bit `k` on data channel `k + 2` (42_encoder.md R93). -/
theorem channelTimeline_slotCalls_data (sym : Symbol) (k : Nat) :
    channelTimeline (slotCalls f p t0 i sym) (k + 2) = sym[k]?.toList.map fun b => (slotStart f p t0 i, bitGain p b) := by
  simp only [slotCalls, channelTimeline_append, channelTimeline_dataCalls, channelTimeline_cons, CLK]
  cases h : sym[k]? <;> simp [h]

theorem channelTimeline_slotsCalls_ref (symbols : List Symbol) :
    channelTimeline (slotsCalls f p t0 i symbols) 1 = [] := by
  induction symbols generalizing i with
  | nil => rfl
  | cons sym rest ih => rw [slotsCalls, channelTimeline_append, channelTimeline_slotCalls_ref, ih, List.nil_append]

end

/-- The shutdown writes gain 0 once on every channel (42_encoder.md R94). -/
theorem channelTimeline_shutdownCalls (count : Nat) (stop : NUM) (ch : Nat) :
    channelTimeline (shutdownCalls count stop) ch = if ch < count then [(stop, .zero)] else [] := by
  induction count with
  | zero => rfl
  | succ n ih =>
    have hsucc : shutdownCalls (n + 1) stop = shutdownCalls n stop ++ [⟨n, stop, .zero⟩] := by
      simp [shutdownCalls, List.range_succ]
    rw [hsucc, channelTimeline_append, ih, channelTimeline_cons]
    obtain h | rfl | h := lt_trichotomy ch n
    · simp [h, h.ne', Nat.lt_succ_of_lt h]
    · simp
    · simp [h.ne, h.not_gt, Nat.not_lt.mpr (Nat.succ_le_of_lt h)]

/-! ## The step function -/

theorem gainAfter_append (g : NUM) (a b : List (NUM × NUM)) (x : NUM) :
    gainAfter g (a ++ b) x = gainAfter (gainAfter g a x) b x := by simp [gainAfter]

theorem gainAfter_cons (g : NUM) (q : NUM × NUM) (tl : List (NUM × NUM)) (x : NUM) :
    gainAfter g (q :: tl) x = gainAfter (if NUM.ge x q.1 then q.2 else g) tl x := rfl

/-- Setpoints that are still to come do not count. -/
theorem gainAfter_of_future (g : NUM) {tl : List (NUM × NUM)} {x : NUM} (h : ∀ q ∈ tl, NUM.ge x q.1 = false) :
    gainAfter g tl x = g := by
  induction tl with
  | nil => rfl
  | cons q rest ih =>
    obtain ⟨hq, hrest⟩ := List.forall_mem_cons.mp h
    rw [gainAfter_cons, hq]
    exact ih hrest

section
variable {f : NumFormat} {p : EncConfig} {t0 x : NUM} {ch : Nat}

theorem gainAfter_slotsCalls_of_future (g : NUM) (i : Nat) (symbols : List Symbol)
    (h : ∀ j, i ≤ j → ∀ sym, ∀ q ∈ channelTimeline (slotCalls f p t0 j sym) ch, NUM.ge x q.1 = false) :
    gainAfter g (channelTimeline (slotsCalls f p t0 i symbols) ch) x = g := by
  induction symbols generalizing i with
  | nil => rfl
  | cons sym rest ih =>
    rw [slotsCalls, channelTimeline_append, gainAfter_append, gainAfter_of_future g (h i le_rfl sym)]
    exact ih (i + 1) fun j hj => h j (Nat.le_of_succ_le hj)

/-- From the stop time on every channel is at gain 0. -/
theorem gainAt_of_stopped (c : Config) {symbols : List Symbol} (hch : ch < p.channels.length)
    (hstop : NUM.ge x (stopTime f p t0 symbols.length) = true) :
    gainAt c (encodeCalls f p symbols t0) ch x = .zero := by
  rw [gainAt, encodeCalls, ← List.cons_append, channelTimeline_append, channelTimeline_shutdownCalls, if_pos hch,
    gainAfter_append, gainAfter_cons, hstop]
  rfl

/-- Before the stop time the shutdown does not count. -/
theorem gainAt_of_not_stopped (c : Config) {symbols : List Symbol}
    (hstop : NUM.ge x (stopTime f p t0 symbols.length) = false) :
    gainAt c (encodeCalls f p symbols t0) ch x =
      gainAfter c.gainIdle (channelTimeline (⟨REF, t0, p.encodeGainLow⟩ :: slotsCalls f p t0 0 symbols) ch) x := by
  rw [gainAt, encodeCalls, ← List.cons_append, channelTimeline_append, gainAfter_append, gainAfter_of_future]
  intro q hq
  rw [channelTimeline_shutdownCalls] at hq
  split at hq
  · rw [List.mem_singleton.mp hq]; exact hstop
  · cases hq

/-- While the setpoints of the slots after slot `i` are still to come, slot `i` decides the gain, after whatever came
before. -/
theorem exists_gainAt_eq_slot (c : Config) {symbols : List Symbol} {i : Nat} {sym : Symbol}
    (hsym : symbols[i]? = some sym) (hstop : NUM.ge x (stopTime f p t0 symbols.length) = false)
    (hfuture : ∀ j, i + 1 ≤ j → ∀ sym, ∀ q ∈ channelTimeline (slotCalls f p t0 j sym) ch, NUM.ge x q.1 = false) :
    ∃ g, gainAt c (encodeCalls f p symbols t0) ch x = gainAfter g (channelTimeline (slotCalls f p t0 i sym) ch) x := by
  obtain ⟨hi, hget⟩ := List.getElem?_eq_some_iff.mp hsym
  have hsplit : symbols = symbols.take i ++ sym :: symbols.drop (i + 1) := by
    rw [← hget, List.getElem_cons_drop, List.take_append_drop]
  have hslots : slotsCalls f p t0 0 symbols = slotsCalls f p t0 0 (symbols.take i) ++
      (slotCalls f p t0 i sym ++ slotsCalls f p t0 (i + 1) (symbols.drop (i + 1))) := by
    conv_lhs => rw [hsplit, slotsCalls_append, List.length_take_of_le hi.le, Nat.zero_add, slotsCalls]
  rw [gainAt_of_not_stopped c hstop, hslots, ← List.cons_append, channelTimeline_append, channelTimeline_append,
    gainAfter_append, gainAfter_append, gainAfter_slotsCalls_of_future _ _ _ hfuture]
  exact ⟨_, rfl⟩

end

/-! ## Exact arithmetic -/

section
variable {p : EncConfig} {dur pause : Rat} (hdur : p.symbolDuration = .fin dur) (hpause : p.symbolPause = .fin pause)
include hdur hpause

theorem slotLength_exact : slotLength .exact p = .fin (dur + pause) := by simp [slotLength, hdur, hpause]

theorem slotStart_exact (t0 : Rat) (i : Nat) : slotStart .exact p (.fin t0) i = .fin (t0 + i * (dur + pause)) := by
  simp [slotStart, slotLength_exact hdur hpause]

theorem stopTime_exact (t0 : Rat) (n : Nat) : stopTime .exact p (.fin t0) n = .fin (t0 + n * (dur + pause)) := by
  cases n with
  | zero => simp
  | succ n => rw [stopTime_succ, slotStart_exact hdur hpause]

theorem riseTime_exact (t0 : Rat) (i : Nat) :
    riseTime .exact p (.fin t0) i = .fin (t0 + i * (dur + pause) + 1 / 4 * (dur + pause)) := by
  rw [riseTime, slotStart_exact hdur hpause, slotLength_exact hdur hpause, mul_fin, round_exact, add_fin, round_exact]

theorem fallTime_exact (t0 : Rat) (i : Nat) :
    fallTime .exact p (.fin t0) i = .fin (t0 + i * (dur + pause) + 3 / 4 * (dur + pause)) := by
  rw [fallTime, slotStart_exact hdur hpause, slotLength_exact hdur hpause, mul_fin, round_exact, add_fin, round_exact]

end

/-- A slot ends no later than a later one starts. -/
theorem slot_end_le_slot {P : Rat} (hP : 0 < P) (t0 : Rat) {i j : Nat} (h : i + 1 ≤ j) :
    t0 + (i + 1) * P ≤ t0 + j * P := by
  have hcast : (i : Rat) + 1 ≤ j := by exact_mod_cast h
  gcongr

section
variable (c : Config) {p : EncConfig} {dur pause t0 x : Rat} {symbols : List Symbol} {i : Nat}
  (hdur : p.symbolDuration = .fin dur) (hpause : p.symbolPause = .fin pause)
include hdur hpause

theorem not_ge_stopTime {n : Nat} (hx : x < t0 + n * (dur + pause)) :
    NUM.ge (.fin x) (stopTime .exact p (.fin t0) n) = false := by
  rw [stopTime_exact hdur hpause, ge_fin]; simpa using hx

theorem gainAt_ref (h0 : t0 ≤ x) (hx : x < t0 + symbols.length * (dur + pause)) :
    gainAt c (encodeCalls .exact p symbols (.fin t0)) 1 (.fin x) = p.encodeGainLow := by
  rw [gainAt_of_not_stopped c (not_ge_stopTime hdur hpause hx), channelTimeline_cons, channelTimeline_slotsCalls_ref,
    if_pos (show REF = 1 from rfl), List.append_nil, gainAfter_cons, ge_fin, decide_eq_true h0]
  rfl

theorem gainAt_stop {ch : Nat} (hch : ch < p.channels.length) (hx : t0 + symbols.length * (dur + pause) ≤ x) :
    gainAt c (encodeCalls .exact p symbols (.fin t0)) ch (.fin x) = .fin 0 :=
  gainAt_of_stopped c hch <| by rw [stopTime_exact hdur hpause, ge_fin]; exact decide_eq_true hx

variable (hP : 0 < dur + pause)
include hP

theorem gainAt_data {k : Nat} {sym : Symbol} {b : Bool} (hsym : symbols[i]? = some sym) (hb : sym[k]? = some b)
    (hstart : t0 + i * (dur + pause) ≤ x) (hend : x < t0 + (i + 1) * (dur + pause)) :
    gainAt c (encodeCalls .exact p symbols (.fin t0)) (k + 2) (.fin x) = bitGain p b := by
  obtain ⟨hi, -⟩ := List.getElem?_eq_some_iff.mp hsym
  have hstop := not_ge_stopTime hdur hpause (hend.trans_le (slot_end_le_slot hP t0 hi))
  obtain ⟨g, hg⟩ := exists_gainAt_eq_slot (ch := k + 2) c hsym hstop fun j hj sym' q hq => by
    rw [channelTimeline_slotCalls_data] at hq
    obtain ⟨_, -, rfl⟩ := List.mem_map.mp hq
    simpa [slotStart_exact hdur hpause] using hend.trans_le (slot_end_le_slot hP t0 hj)
  rw [hg, channelTimeline_slotCalls_data, hb]
  simp [gainAfter, slotStart_exact hdur hpause, hstart]

/-- Until the next pulse the pulse of slot `i` decides the gain of the clock channel. -/
theorem exists_gainAt_clock (hi : i < symbols.length) (hend : x < t0 + (i + 1) * (dur + pause) + 1 / 4 * (dur + pause))
    (hx : x < t0 + symbols.length * (dur + pause)) :
    ∃ g, gainAt c (encodeCalls .exact p symbols (.fin t0)) 0 (.fin x) =
      gainAfter g
        [(.fin (t0 + i * (dur + pause) + 1 / 4 * (dur + pause)), p.encodeGainHigh),
          (.fin (t0 + i * (dur + pause) + 3 / 4 * (dur + pause)), p.encodeGainLow)] (.fin x) := by
  obtain ⟨g, hg⟩ := exists_gainAt_eq_slot (ch := 0) c (List.getElem?_eq_getElem hi) (not_ge_stopTime hdur hpause hx)
    fun j hj sym' q hq => by
      have hj := slot_end_le_slot hP t0 hj
      rw [channelTimeline_slotCalls_clock, riseTime_exact hdur hpause, fallTime_exact hdur hpause] at hq
      obtain rfl | rfl : q = _ ∨ q = _ := by simpa using hq
      all_goals
        rw [ge_fin, decide_eq_false_iff_not, not_le]
        linarith
  rw [channelTimeline_slotCalls_clock, riseTime_exact hdur hpause, fallTime_exact hdur hpause] at hg
  exact ⟨g, hg⟩

theorem gainAt_clock_high (hi : i < symbols.length)
    (hrise : t0 + i * (dur + pause) + 1 / 4 * (dur + pause) ≤ x)
    (hfall : x < t0 + i * (dur + pause) + 3 / 4 * (dur + pause)) :
    gainAt c (encodeCalls .exact p symbols (.fin t0)) 0 (.fin x) = p.encodeGainHigh := by
  have hstop := slot_end_le_slot hP t0 hi
  obtain ⟨g, hg⟩ := exists_gainAt_clock (t0 := t0) (x := x) c hdur hpause hP hi (by linarith) (by linarith)
  rw [hg, gainAfter_cons, gainAfter_cons, ge_fin, ge_fin, decide_eq_true hrise, decide_eq_false hfall.not_ge]
  rfl

theorem gainAt_clock_low (hi : i < symbols.length)
    (hfall : t0 + i * (dur + pause) + 3 / 4 * (dur + pause) ≤ x)
    (hend : x < t0 + (i + 1) * (dur + pause) + 1 / 4 * (dur + pause))
    (hx : x < t0 + symbols.length * (dur + pause)) :
    gainAt c (encodeCalls .exact p symbols (.fin t0)) 0 (.fin x) = p.encodeGainLow := by
  obtain ⟨g, hg⟩ := exists_gainAt_clock c hdur hpause hP hi hend hx
  rw [hg, gainAfter_cons, gainAfter_cons, ge_fin, ge_fin, decide_eq_true hfall]
  rfl

end

/-- Settles O41: at any time before the stop time the setpoints of later slots do not count yet, so the current slot
decides the gain of its channels; from the stop time on the shutdown does. -/
theorem timelinePlaysTheSymbolsInExactArithmetic : Obligations.TimelinePlaysTheSymbolsInExactArithmetic := by
  intro c p dur pause t0 x symbols hdur hpause hP _ _
  exact ⟨fun _ _ _ _ => gainAt_data c hdur hpause hP, fun _ => gainAt_clock_high c hdur hpause hP,
    fun _ => gainAt_clock_low c hdur hpause hP, gainAt_ref c hdur hpause, fun _ => gainAt_stop c hdur hpause⟩

end Sys2Proof.Machine
end

section
/-! PROOFS. The opcode map and the payload formats (30_encoding.md R50 to R56, R63, R64): `encode` is the inverse of
`decode`, and the opcode bytes and the table words decode to their commands. -/

namespace Sys2Proof

open Sys2Proof.Machine

/-! ## Opcode and format -/

/-- The opcode of the command that has this format (R52). -/
def PayloadFormat.opcode : PayloadFormat → Byte
  | .Q => 0x00#8
  | .DC => 0x10#8
  | .F => 0x11#8
  | .K => 0x12#8
  | .EC => 0x20#8
  | .E => 0x21#8

/-- The two nibbles of R51 make up the byte. -/
theorem toNat_eq_of_nibbles (b : Byte) : b.toNat = 16 * (opcodeUnit b).toNat + (opcodeFn b).toNat := by
  simp [opcodeUnit, opcodeFn, Nat.shiftRight_eq_div_pow]
  omega

theorem formatOf_opcode (f : PayloadFormat) : formatOf f.opcode = some f := by
  cases f <;> decide

/-- The opcode map accepts one byte for each format. -/
theorem formatOf_eq_some_iff (b : Byte) (f : PayloadFormat) : formatOf b = some f ↔ b = f.opcode := by
  refine ⟨fun h => ?_, fun h => h ▸ formatOf_opcode f⟩
  unfold formatOf at h
  split at h
  case h_7 => cases h
  all_goals
    rename_i hunit hfn
    cases h
    exact BitVec.eq_of_toNat_eq (by rw [toNat_eq_of_nibbles, hunit, hfn]; rfl)

/-- A payload reads as an instruction only if it is that instruction's payload in that instruction's format. -/
theorem eq_of_readPayload {f : PayloadFormat} {payload : List PayloadValue} {i : Instr}
    (h : readPayload f payload = some i) : f.opcode = i.opcode ∧ payload = i.payload := by
  unfold readPayload at h
  split at h
  case h_7 => cases h
  all_goals cases h; exact ⟨rfl, rfl⟩

/-! ## The decoder -/

/-- The encoding of every instruction has the shape that `decode` accepts. -/
theorem encodedShape (i : Instr) : Laws.EncodedShape.Statement i := by
  cases i with
  | bin freq sr b => exact Laws.EncodedShape.bin freq sr b
  | dcfg p raw => exact Laws.EncodedShape.dcfg p raw
  | frame mags => exact Laws.EncodedShape.frame mags
  | detach => exact Laws.EncodedShape.detach
  | ecfg p => exact Laws.EncodedShape.ecfg p
  | encode symbols t0 => exact Laws.EncodedShape.encode symbols t0

theorem decode_eq_instr_iff (cmd : Command) (i : Instr) :
    decode cmd = .instr i ↔ ∃ f, formatOf cmd.opcode = some f ∧ readPayload f cmd.payload = some i := by
  unfold decode
  split
  next h => simp [h]
  next f h =>
    split
    next j hj => simp [h, hj]
    next hj => simp [h, hj]

theorem decode_encode (i : Instr) : decode (encode i) = .instr i := (decode_eq_instr_iff ..).mpr (encodedShape i)

/-- Settles O2: the opcode byte fixes the format, the format the payload. -/
theorem decodeIsTheInverseOfEncode : Obligations.DecodeIsTheInverseOfEncode := by
  intro cmd i
  refine ⟨fun h => ?_, fun h => h ▸ decode_encode i⟩
  obtain ⟨f, hf, hread⟩ := (decode_eq_instr_iff ..).mp h
  obtain ⟨hop, hpayload⟩ := eq_of_readPayload hread
  have hopcode : cmd.opcode = i.opcode := ((formatOf_eq_some_iff ..).mp hf).trans hop
  calc cmd = ⟨cmd.opcode, cmd.payload⟩ := rfl
    _ = encode i := by rw [hopcode, hpayload, encode]

/-- Settles O1: each command, written out, is the encoding of its instruction. -/
theorem opcodeBytesDecodeAsTabled : Obligations.OpcodeBytesDecodeAsTabled :=
  ⟨fun f sr b => decode_encode (.bin f sr b),
    fun b sr ch thr q sm raw => decode_encode (.dcfg ⟨b, sr, ch, thr, q, sm⟩ raw),
    fun fr => decode_encode (.frame fr),
    decode_encode .detach,
    fun ch q hi lo dur pause => decode_encode (.ecfg ⟨ch, q, hi, lo, dur, pause⟩),
    fun ss t0 => decode_encode (.encode ss t0)⟩

/-! ## The table words -/

/-- A table word is read as the instruction its command decodes to. -/
theorem decodeTableWord_eq_some_iff (w : Nat) (i : Instr) :
    decodeTableWord 8 w = some i ↔ w < 256 ∧ decode (tableCommand w) = .instr i := by
  by_cases hw : w < 256
  · cases hd : decode (tableCommand w) <;> simp [decodeTableWord, hw, hd]
  · simp [decodeTableWord, hw]

/-- A table word that is read as an instruction is placed as the host's next move, and the step runs it. -/
theorem step_withFetchWord {w : Nat} {i : Instr} (h : decodeTableWord 8 w = some i) (s : State) :
    step (s.withFetchWord 8 w) = exec i s := by
  obtain ⟨hw, hd⟩ := (decodeTableWord_eq_some_iff ..).mp h
  rw [State.withFetchWord, if_pos ⟨rfl, hw⟩]
  exact step_command rfl hd

/-- The opcode word of a format stands for a command of that opcode. -/
theorem exists_decodeTableWord (f : PayloadFormat) :
    ∃ i, decodeTableWord 8 f.opcode.toNat = some i ∧ i.opcode = f.opcode := by
  have hzero : ∃ i, readPayload f (zeroPayload f) = some i := by cases f <;> exact ⟨_, rfl⟩
  obtain ⟨i, hi⟩ := hzero
  have hcommand : tableCommand f.opcode.toNat = ⟨f.opcode, zeroPayload f⟩ := by
    simp [tableCommand, formatOf_opcode]
  refine ⟨i, (decodeTableWord_eq_some_iff ..).mpr ⟨f.opcode.isLt, ?_⟩, (eq_of_readPayload hi).1.symm⟩
  rw [hcommand]
  exact (decode_eq_instr_iff ..).mpr ⟨f, formatOf_opcode f, hi⟩

/-- The six words of R52 are the opcodes of the formats. -/
theorem exists_format_of_tableWord {w : Nat} (hw : w ∈ [0x00, 0x10, 0x11, 0x12, 0x20, 0x21]) :
    ∃ f : PayloadFormat, w = f.opcode.toNat := by
  fin_cases hw
  exacts [⟨.Q, rfl⟩, ⟨.DC, rfl⟩, ⟨.F, rfl⟩, ⟨.K, rfl⟩, ⟨.EC, rfl⟩, ⟨.E, rfl⟩]

/-- Settles O5. -/
theorem tableWordsAreFetchedAndRun : Obligations.TableWordsAreFetchedAndRun := by
  intro w hw
  obtain ⟨f, rfl⟩ := exists_format_of_tableWord hw
  obtain ⟨i, hi, hop⟩ := exists_decodeTableWord f
  exact ⟨i, hi, congrArg BitVec.toNat hop, step_withFetchWord hi⟩

end Sys2Proof
end

section
/-! PROOFS. What stands on the ports (30_encoding.md R49, R59 to R61): the word form of a symbol, and which command a
reply's events, setpoints and bin come from. -/

namespace Sys2Proof.Machine

/-! ## The word form of a symbol -/

/-- The word of a symbol is the word of its tail, shifted up by one place, with the first element below it. -/
theorem symbolWord_cons (n : Nat) (b : Bool) (rest : Symbol) :
    symbolWord n (b :: rest) = (symbolWord n rest).shiftConcat b := by
  apply BitVec.eq_of_toNat_eq
  simp [symbolWord, zextBool, BitVec.toNat_shiftConcat, Nat.shiftLeft_eq, Nat.add_comm, Nat.mul_comm]

/-- Settles O43, by induction on the symbol: bit `k + 1` of a word is bit `k` of the word of its tail. -/
theorem symbolWordBits : Obligations.SymbolWordBits := by
  intro n bits k hk
  induction bits generalizing k with
  | nil => simp [symbolWord]
  | cons b rest ih =>
    rw [symbolWord_cons, BitVec.getLsbD_shiftConcat]
    cases k with
    | zero => simp [hk]
    | succ k => simpa [hk] using ih k (by omega)

/-! ## The sources of a reply -/

theorem DecEffect.events_source {i : Instr} {d d' : Dec} {ev : List Event} (h : DecEffect i d ev d') (hev : ev ≠ []) :
    ∃ fr, i = .frame fr := by
  cases h with
  | keep | construct | detach => exact absurd rfl hev
  | rise | stayLow | accumulate | fall => exact ⟨_, rfl⟩

theorem EncEffect.setpoints_source {i : Instr} {e e' : Enc} {sp : List Setpoint} (h : EncEffect i e sp e')
    (hsp : sp ≠ []) : ∃ symbols t0, i = .encode symbols t0 := by
  cases h with
  | keep | construct => exact absurd rfl hsp
  | transmit => exact ⟨_, _, rfl⟩

theorem exec_frame_bin_none {fr : Frame} {s t : State} (h : exec (.frame fr) s = .next t) :
    ∃ r, t.transcript = s.transcript ++ [r] ∧ r.response.bin = none := by
  obtain ⟨-, ⟨-, rfl⟩ | ⟨-, -, rfl⟩ | ⟨-, -, -, rfl⟩ | ⟨-, -, -, _, _, _, -, hcase⟩⟩ := frameCommand_next h
  · exact ⟨_, rfl, rfl⟩
  · exact ⟨_, rfl, rfl⟩
  · exact ⟨_, rfl, rfl⟩
  · obtain ⟨-, rfl⟩ | ⟨-, rfl⟩ | ⟨-, -, -, rfl⟩ | ⟨-, _, -, rfl⟩ := frameCase_next hcase <;> exact ⟨_, rfl, rfl⟩

/-- The result of a response is there exactly for BIN. -/
theorem exec_bin_isSome_iff {i : Instr} {s t : State} (h : exec i s = .next t) :
    ∃ r, t.transcript = s.transcript ++ [r] ∧
      (r.response.bin.isSome = true ↔ ∃ freq sr b, i = .bin freq sr b) := by
  cases i with
  | bin freq sr b =>
    obtain rfl := binCommand_next h
    exact ⟨_, rfl, by simp⟩
  | dcfg p raw =>
    obtain ⟨-, -, ⟨_, -, rfl⟩ | ⟨-, rfl⟩⟩ := dcfgCommand_next h <;> exact ⟨_, rfl, by simp [rejection]⟩
  | frame fr =>
    obtain ⟨r, hr, hbin⟩ := exec_frame_bin_none h
    exact ⟨r, hr, by simp [hbin]⟩
  | detach =>
    obtain ⟨-, he⟩ | ⟨-, he⟩ := execDetach_cases s <;> cases he.symm.trans h <;> exact ⟨_, rfl, by simp [rejection]⟩
  | ecfg p =>
    obtain ⟨-, -, ⟨_, -, rfl⟩ | ⟨-, rfl⟩⟩ := ecfgCommand_next h <;> exact ⟨_, rfl, by simp [rejection]⟩
  | encode symbols t0 =>
    obtain ⟨-, ⟨-, rfl⟩ | ⟨-, -, rfl⟩ | ⟨-, -, _, -, rfl⟩⟩ := encodeCommand_next h <;>
      exact ⟨_, rfl, by simp [rejection]⟩

/-- Settles O47: events and setpoints by the effects on the two units, the bin by the response. -/
theorem eachPortHasOneSource : Obligations.EachPortHasOneSource := by
  intro i s t h
  obtain ⟨r, hr, -, hdec, henc⟩ := exec_effect h
  obtain ⟨r', hr', hbin⟩ := exec_bin_isSome_iff h
  obtain rfl : r = r' := by simpa using hr.symm.trans hr'
  exact ⟨r, hr, hdec.events_source, henc.setpoints_source, hbin⟩

end Sys2Proof.Machine
end

section
/-! PROOFS. The frame that the pseudo-instruction FRAMEC stands for (30_encoding.md R65 (b)), read bin by bin
(20_memory.md R37). -/

namespace Sys2Proof.Machine.Asm

/-! ## A sparse frame -/

@[simp] theorem length_sparseMags (listed : List (Nat × NUM)) (other : NUM) (len : Nat) :
    (sparseMags listed other len).length = len := by simp [sparseMags]

/-- Inside the frame `MagRead` looks the bin up in the list. -/
theorem magRead_sparseMags (listed : List (Nat × NUM)) (other : NUM) {len k : Nat} (hk : k < len) :
    magRead (sparseMags listed other len) k = some (lookupMag listed other k) :=
  (magRead_iff ..).mpr ⟨by omega, by simp [sparseMags, hk]⟩

/-! ## The values of a channel frame -/

/-- The values of a channel frame as a sparse frame lists them: the value of channel `c` at the bin of channel `c`. -/
def listedBins (bins : List Int) (mags : List NUM) : List (Nat × NUM) :=
  (bins.zip mags).filterMap fun q => listedAt q.1 q.2

theorem channelMagsFrame_eq (f : NumFormat) (p : DecConfig) (mags : List NUM) (other : NUM) :
    channelMagsFrame f p mags other =
      sparseMags (listedBins (p.channels.map (channelBin f p)) mags) other (p.transformBlockSize / 2) := rfl

/-- A lookup tries the first channel's bin, then the other channels'. -/
theorem lookupMag_listedBins_cons (bin : Int) (bins : List Int) (x : NUM) (mags : List NUM) (other : NUM) (k : Nat) :
    lookupMag (listedBins (bin :: bins) (x :: mags)) other k =
      if bin = k then x else lookupMag (listedBins bins mags) other k := by
  by_cases h0 : 0 ≤ bin
  · obtain ⟨b, rfl⟩ := Int.eq_ofNat_of_zero_le h0
    by_cases hb : b = k <;> simp [lookupMag, listedBins, listedAt, hb]
  · have hne : bin ≠ k := by omega
    simp [lookupMag, listedBins, listedAt, h0, hne]

/-- A bin of no channel has the other value. -/
theorem lookupMag_listedBins_of_notMem {bins : List Int} {mags : List NUM} (other : NUM) {k : Nat}
    (hk : (k : Int) ∉ bins) : lookupMag (listedBins bins mags) other k = other := by
  induction bins generalizing mags with
  | nil => rfl
  | cons bin bins ih =>
    obtain ⟨hne, hrest⟩ := not_or.mp (mt List.mem_cons.mpr hk)
    cases mags with
    | nil => rfl
    | cons x mags => rw [lookupMag_listedBins_cons, if_neg (Ne.symm hne), ih hrest]

/-- Of distinct bins each has the value of its channel. -/
theorem lookupMag_listedBins_of_getElem? {bins : List Int} {mags : List NUM} (other : NUM) {c k : Nat} {x : NUM}
    (hbins : bins.Pairwise (· ≠ ·)) (hk : bins[c]? = some (k : Int)) (hx : mags[c]? = some x) :
    lookupMag (listedBins bins mags) other k = x := by
  induction bins generalizing mags c with
  | nil => cases hk
  | cons bin bins ih =>
    obtain ⟨hfirst, hrest⟩ := List.pairwise_cons.mp hbins
    cases mags with
    | nil => cases hx
    | cons y mags =>
      rw [lookupMag_listedBins_cons]
      cases c with
      | zero =>
        cases hk; cases hx
        exact if_pos rfl
      | succ c =>
        have hne : bin ≠ k := hfirst k (List.mem_of_getElem? hk)
        rw [if_neg hne, ih hrest hk hx]

end Sys2Proof.Machine.Asm

namespace Sys2Proof.Machine

open Sys2Proof.Machine.Asm

/-- Settles O44. -/
theorem channelFramePutsEachValueAtItsBin : Obligations.ChannelFramePutsEachValueAtItsBin := by
  intro f p mags other _ hdistinct hinside
  rw [channelMagsFrame_eq]
  refine ⟨length_sparseMags .., fun c ch x hch hx => ?_, fun k hk hother => ?_⟩
  · obtain ⟨h0, hlt⟩ := hinside ch (List.mem_of_getElem? hch)
    obtain ⟨k, hk⟩ := Int.eq_ofNat_of_zero_le h0
    have hbin : (p.channels.map (channelBin f p))[c]? = some (k : Int) := by simp [hch, hk]
    rw [hk] at hlt ⊢
    rw [magRead_sparseMags _ _ (Int.ofNat_lt.mp hlt), lookupMag_listedBins_of_getElem? other hdistinct hbin hx]
  · have hnone : (k : Int) ∉ p.channels.map (channelBin f p) := by simpa using hother
    rw [magRead_sparseMags _ _ hk, lookupMag_listedBins_of_notMem other hnone]

end Sys2Proof.Machine
end

section
/-! PROOFS. BINMAP (40_binmap.md R67 to R69). In exact arithmetic `bin` is the lower bound of its half-open interval
(`le_bin_exact_iff`), from which R69 (b) to (e) follow. Under binary64 the frequencies with a finite quotient are an
interval that holds 0 when it holds any frequency, so the limits of the free value (log 9) join its two ends. -/

namespace Sys2Proof

/-- Between two numbers with a finite rounding every number has one, between theirs. -/
theorem exists_round_eq_fin_of_le_of_le {f : NumFormat} {x y w a b : Rat} (hxy : x ≤ y) (hyw : y ≤ w)
    (hx : f.round x = .fin a) (hw : f.round w = .fin b) : ∃ c, f.round y = .fin c ∧ a ≤ c ∧ c ≤ b := by
  have hy : ∃ c, f.round y = .fin c := by
    cases f with
    | exact => exact ⟨y, rfl⟩
    | binary64 =>
      obtain ⟨rfl, ha⟩ := round64_eq_fin_iff.mp hx
      obtain ⟨rfl, hb⟩ := round64_eq_fin_iff.mp hw
      refine ⟨gridRound y, round64_eq_fin_iff.mpr ⟨rfl, abs_lt.mpr ⟨?_, ?_⟩⟩⟩
      · exact (abs_lt.mp ha).1.trans_le (gridRound_mono hxy)
      · exact (gridRound_mono hyw).trans_lt (abs_lt.mp hb).2
  obtain ⟨c, hc⟩ := hy
  exact ⟨c, hc, round_mono hxy hx hc, round_mono hyw hc hw⟩

theorem round_one (f : NumFormat) : f.round 1 = .fin 1 := by
  cases f with
  | exact => rfl
  | binary64 => decide +kernel

end Sys2Proof

namespace Sys2Proof.Machine

/-! ## The command -/

theorem exec_bin {freq sr : NUM} {b : Nat} (s : State) (hf : freq.isValue .binary64 = true)
    (hv : sr.isValue .binary64 = true) (hs : NUM.gt sr .zero = true) (hb : 1 ≤ b) :
    exec (.bin freq sr b) s = .next (s.respond ⟨⟨.ok, none, some (bin .binary64 freq sr b)⟩, [], []⟩) := by
  refine guarded_eq ?_ ?_
  · simp [Instr.operandsFinite, hf, hv]
  · simp [Instr.payloadOk, binOperandsOk, hs, hb]

/-- Settles O10: a finite quotient is the one whose floor BIN answers. -/
theorem binAnswersTheFloorOfTheQuotient : Obligations.BinAnswersTheFloorOfTheQuotient := by
  intro freq sr b s hf hv hs hb
  refine ⟨bin .binary64 freq sr b, exec_bin s hf hv hs hb, ?_⟩
  rintro _ q rfl hq
  rw [bin_eq_floor hq]
  exact ⟨Int.floor_le q, Int.lt_floor_add_one q⟩

/-! ## Exact arithmetic -/

section Exact
variable {x sr : Rat} {b : Nat} {k : Int}

/-- The frequencies on bin `k` or above. -/
theorem le_bin_exact_iff (hs : 0 < sr) (hb : 1 ≤ b) :
    k ≤ bin .exact (.fin x) (.fin sr) b ↔ (k : Rat) * (sr / b) - sr / b / 2 ≤ x := by
  have hsize : 0 < sr / (b : Rat) := div_pos hs (by exact_mod_cast hb)
  rw [bin_eq_floor (binQuotient_exact hs hb), Rat.le_floor_iff, le_div_iff₀ hsize, sub_le_iff_le_add]

theorem bin_exact_eq_iff (hs : 0 < sr) (hb : 1 ≤ b) :
    bin .exact (.fin x) (.fin sr) b = k ↔
      (k : Rat) * (sr / b) - sr / b / 2 ≤ x ∧ x < (k : Rat) * (sr / b) + sr / b / 2 := by
  have hnext : ((k + 1 : Int) : Rat) * (sr / b) - sr / b / 2 = (k : Rat) * (sr / b) + sr / b / 2 := by push_cast; ring
  rw [← le_bin_exact_iff hs hb, ← not_le (b := x), ← hnext, ← le_bin_exact_iff hs hb]
  omega

/-- Settles O12: bin `k` begins where bin `k` or above does, and ends where bin `k + 1` begins. -/
theorem binIsTheHalfOpenInterval : Obligations.BinIsTheHalfOpenInterval := by
  intro x sr b k hs hb
  have hsize : 0 < sr / (b : Rat) := div_pos hs (by exact_mod_cast hb)
  exact ⟨bin_exact_eq_iff hs hb, (bin_exact_eq_iff hs hb).mpr ⟨by linarith, by linarith⟩⟩

/-- Settles O13: `B/2` bin sizes are the Nyquist frequency. -/
theorem topHalfBinIndexesPastTheFrame : Obligations.TopHalfBinIndexesPastTheFrame := by
  intro x sr h hs hh hx hlt
  have hb : 1 ≤ 2 * h := by omega
  have hsize : 0 < sr / ((2 * h : Nat) : Rat) := div_pos hs (by exact_mod_cast hb)
  have hnyquist : ((h : Int) : Rat) * (sr / ((2 * h : Nat) : Rat)) = sr / 2 := by
    have : (h : Rat) ≠ 0 := by exact_mod_cast (by omega : h ≠ 0)
    push_cast; field_simp
  have htop := le_bin_exact_iff (x := x) (k := h) hs hb
  have hpast := le_bin_exact_iff (x := x) (k := h + 1) hs hb
  rw [hnyquist] at htop
  rw [Int.cast_add, add_mul, hnyquist, Int.cast_one, one_mul] at hpast
  have hle : bin .exact (.fin x) (.fin sr) (2 * h) ≤ (h : Int) := by
    by_contra hgt
    linarith [hpast.mp (by omega)]
  exact ⟨bin_nonneg hx hs, hle, by rw [← htop]; omega⟩

/-- Up to `B/2` bin sizes lie at or below the Nyquist frequency. -/
theorem half_mul_binSize_le (hs : 0 < sr) (hb : 1 ≤ b) : ((b / 2 : Nat) : Rat) * (sr / b) ≤ sr / 2 := by
  have hb0 : (0 : Rat) < b := by exact_mod_cast hb
  calc ((b / 2 : Nat) : Rat) * (sr / b) ≤ (b : Rat) / 2 * (sr / b) := by gcongr; exact Nat.cast_div_le
    _ = sr / 2 := by field_simp

end Exact

/-! ## Where the quotient is finite -/

section Finite
variable {f : NumFormat} {x y w sr p q r z half sum : Rat} {b : Nat}

theorem binSize_eq_round (hb : 1 ≤ b) : binSize f (.fin sr) b = f.round (sr / b) :=
  div_fin f sr b (by exact_mod_cast (by omega : b ≠ 0))

/-- The quotient where each step on the way to it is finite. -/
theorem binQuotient_eq_round (hz : binSize f (.fin sr) b = .fin z) (hz0 : 0 < z) (hhalf : f.round (z / 2) = .fin half)
    (hsum : f.round (x + half) = .fin sum) : binQuotient f (.fin x) (.fin sr) b = f.round (sum / z) := by
  simp only [binQuotient, hz, div_fin f z 2 two_ne_zero, hhalf, add_fin, hsum, div_fin f sum z hz0.ne']

/-- Between two frequencies with a finite quotient every frequency has one, between theirs. -/
theorem exists_binQuotient_fin_of_le_of_le (hs : 0 < sr) (hxy : x ≤ y) (hyw : y ≤ w)
    (hx : binQuotient f (.fin x) (.fin sr) b = .fin p) (hw : binQuotient f (.fin w) (.fin sr) b = .fin r) :
    ∃ q, binQuotient f (.fin y) (.fin sr) b = .fin q ∧ p ≤ q ∧ q ≤ r := by
  obtain ⟨z, half, sx, hz, hz0, hhalf, -, hsx, hp⟩ := binQuotient_fin hs hx
  obtain ⟨z', half', sw, hz', -, hhalf', -, hsw, hr⟩ := binQuotient_fin hs hw
  obtain rfl : z = z' := by simpa using hz.symm.trans hz'
  obtain rfl : half = half' := by simpa using hhalf.symm.trans hhalf'
  obtain ⟨sy, hsy, hlow, hhigh⟩ := exists_round_eq_fin_of_le_of_le (y := y + half) (by gcongr) (by gcongr) hsx hsw
  rw [binQuotient_eq_round hz hz0 hhalf hsy]
  exact exists_round_eq_fin_of_le_of_le (by gcongr) (by gcongr) hp hr

/-- Where any frequency has a finite quotient, 0 has: its sum is half of the bin size, at most the bin size itself. -/
theorem exists_binQuotient_zero_fin (hs : 0 < sr) (hb : 1 ≤ b) (hx : binQuotient f (.fin x) (.fin sr) b = .fin p) :
    ∃ q, binQuotient f (.fin 0) (.fin sr) b = .fin q := by
  obtain ⟨z, half, -, hz, hz0, hhalf, hhalf0, -, -⟩ := binQuotient_fin hs hx
  have hle : half ≤ z := round_mono (by linarith) hhalf (round_idem (binSize_eq_round hb ▸ hz))
  rw [binQuotient_eq_round hz hz0 hhalf (by rw [zero_add]; exact round_idem hhalf)]
  obtain ⟨q, hq, -, -⟩ :=
    exists_round_eq_fin_of_le_of_le (div_nonneg hhalf0 hz0.le) ((div_le_one hz0).mpr hle) (round_zero f) (round_one f)
  exact ⟨q, hq⟩

theorem bin_le_bin_of_fin (hs : 0 < sr) (hxy : x ≤ y) (hx : binQuotient f (.fin x) (.fin sr) b = .fin p)
    (hy : binQuotient f (.fin y) (.fin sr) b = .fin q) :
    bin f (.fin x) (.fin sr) b ≤ bin f (.fin y) (.fin sr) b := by
  obtain ⟨_, -, hpq, hqr⟩ := exists_binQuotient_fin_of_le_of_le hs hxy le_rfl hx hy
  rw [bin_eq_floor hx, bin_eq_floor hy]
  exact Int.floor_le_floor (hpq.trans hqr)

end Finite

/-! ## Where the quotient is not finite (log 9) -/

section NotFinite
variable {f : NumFormat} {x y sr q : Rat} {b : Nat}

theorem bin_of_not_fin (h : ∀ q, binQuotient f (.fin x) (.fin sr) b ≠ .fin q) :
    bin f (.fin x) (.fin sr) b =
      if x < 0 then binBelow f (.fin x) (.fin sr) b else binAbove f (.fin x) (.fin sr) b := by
  unfold bin
  cases hq : binQuotient f (.fin x) (.fin sr) b with
  | fin q => exact absurd hq (h q)
  | inf n => simp [NUM.floor?]
  | nan => simp [NUM.floor?]

theorem bin_eq_binBelow (h : ∀ q, binQuotient f (.fin x) (.fin sr) b ≠ .fin q) (hx : x < 0) :
    bin f (.fin x) (.fin sr) b = binBelow f (.fin x) (.fin sr) b := by rw [bin_of_not_fin h, if_pos hx]

theorem bin_eq_binAbove (h : ∀ q, binQuotient f (.fin x) (.fin sr) b ≠ .fin q) (hx : 0 ≤ x) :
    bin f (.fin x) (.fin sr) b = binAbove f (.fin x) (.fin sr) b := by rw [bin_of_not_fin h, if_neg (not_lt.mpr hx)]

/-- A frequency above one with a finite quotient, itself with none, lies at or above 0. -/
theorem nonneg_of_not_fin (hs : 0 < sr) (hb : 1 ≤ b) (hxy : x ≤ y)
    (hx : binQuotient f (.fin x) (.fin sr) b = .fin q) (hy : ∀ q, binQuotient f (.fin y) (.fin sr) b ≠ .fin q) :
    0 ≤ y := by
  by_contra hneg
  obtain ⟨_, hzero⟩ := exists_binQuotient_zero_fin hs hb hx
  obtain ⟨_, hfin, -, -⟩ := exists_binQuotient_fin_of_le_of_le hs hxy (not_le.mp hneg).le hx hzero
  exact hy _ hfin

/-- A frequency below one with a finite quotient, itself with none, lies below 0. -/
theorem neg_of_not_fin (hs : 0 < sr) (hb : 1 ≤ b) (hxy : x ≤ y)
    (hx : ∀ q, binQuotient f (.fin x) (.fin sr) b ≠ .fin q) (hy : binQuotient f (.fin y) (.fin sr) b = .fin q) :
    x < 0 := by
  by_contra hneg
  obtain ⟨_, hzero⟩ := exists_binQuotient_zero_fin hs hb hy
  obtain ⟨_, hfin, -, -⟩ := exists_binQuotient_fin_of_le_of_le hs (not_lt.mp hneg) hxy hzero hy
  exact hx _ hfin

theorem edgeBin_le_binAbove (freq sampleRate : NUM) :
    edgeBin f greatest64 sampleRate b ≤ binAbove f freq sampleRate b :=
  (le_max_left ..).trans (le_max_left ..)

theorem binBelow_le_edgeBin (freq sampleRate : NUM) :
    binBelow f freq sampleRate b ≤ edgeBin f (-greatest64) sampleRate b :=
  (min_le_left ..).trans (min_le_left ..)

end NotFinite

/-! ## The statements for both instantiations -/

/-- Under binary64 the bins without a finite quotient lie beyond the finite ones, on the side of their sign. -/
theorem bin_binary64_mono {x y sr : Rat} {b : Nat} (hs : 0 < sr) (hb : 1 ≤ b) (hxy : x ≤ y) :
    bin .binary64 (.fin x) (.fin sr) b ≤ bin .binary64 (.fin y) (.fin sr) b := by
  rcases exists_or_forall_not fun q => binQuotient .binary64 (.fin x) (.fin sr) b = .fin q with ⟨_, hx⟩ | hx <;>
    rcases exists_or_forall_not fun q => binQuotient .binary64 (.fin y) (.fin sr) b = .fin q with ⟨_, hy⟩ | hy
  · exact bin_le_bin_of_fin hs hxy hx hy
  · rw [bin_eq_floor hx, bin_eq_binAbove hy (nonneg_of_not_fin hs hb hxy hx hy)]
    exact (floor_le_edgeBin hs hx).2.trans (edgeBin_le_binAbove ..)
  · rw [bin_eq_floor hy, bin_eq_binBelow hx (neg_of_not_fin hs hb hxy hx hy)]
    exact (binBelow_le_edgeBin ..).trans (floor_le_edgeBin hs hy).1
  · rcases lt_or_ge y 0 with hy0 | hy0
    · rw [bin_eq_binBelow hx (hxy.trans_lt hy0), bin_eq_binBelow hy hy0]
      exact binBelow_mono _ hxy
    rcases lt_or_ge x 0 with hx0 | hx0
    · rw [bin_eq_binBelow hx hx0, bin_eq_binAbove hy hy0]
      exact (binBelow_neg ..).le.trans (binAbove_nonneg ..)
    · rw [bin_eq_binAbove hx hx0, bin_eq_binAbove hy hy0]
      exact binAbove_mono _ hxy

/-- Settles O11: in exact arithmetic every quotient is finite. -/
theorem binIsMonotone : Obligations.BinIsMonotone := by
  intro f x y sr b hs hb hxy
  cases f with
  | binary64 => exact bin_binary64_mono hs hb hxy
  | exact => exact bin_le_bin_of_fin hs hxy (binQuotient_exact hs hb) (binQuotient_exact hs hb)

/-- Settles O53: in exact arithmetic by the half-open interval; without a finite quotient by the limits of the free
value, since no negative frequency lies in the top half-bin. -/
theorem binOutsideTheFrame : Obligations.BinOutsideTheFrame := by
  refine ⟨fun x sr b hs hb => ⟨fun hx => ?_, fun hx => ?_⟩,
    fun x sr b hs hb hq => ⟨fun hx => ?_, fun hx => bin_nonneg hx hs, fun hx => ?_⟩⟩
  · rw [← not_le, le_bin_exact_iff hs hb]
    simpa using hx
  · rw [le_bin_exact_iff hs hb]
    exact (sub_le_sub_right (half_mul_binSize_le hs hb) _).trans hx
  · rw [bin_eq_binBelow hq hx]
    exact binBelow_neg ..
  · have hsize : sr / (b : Rat) ≤ sr := div_le_self hs.le (by exact_mod_cast hb)
    rw [bin_eq_binAbove hq (by linarith)]
    exact le_binAbove _ (decide_eq_true hx)

end Sys2Proof.Machine
end

section
/-! PROOFS. DEC: construction and detachment (41_decoder.md R71 to R73, R84): which check of DCFG decides its cause,
what past them the bins are in exact arithmetic, and which command attaches a decoder or detaches it. -/

namespace Sys2Proof.Machine

open Sys2Proof.Claims

/-! ## The checks of DCFG, in order -/

section
variable {channels : List Channel}

theorem checkChannelList_of_length_lt (hlen : channels.length < 2) :
    checkChannelList channels = some .tooFewChannels := if_pos hlen

theorem checkChannelList_of_not_increasing (hlen : 2 ≤ channels.length) (hinc : ¬ CentersIncrease channels) :
    checkChannelList channels = some .nonMonotonic := by
  rw [centersIncrease_iff] at hinc
  rw [checkChannelList, if_neg (Nat.not_lt.mpr hlen), if_neg hinc]

theorem checkChannelList_of_increasing (hlen : 2 ≤ channels.length) (hinc : CentersIncrease channels) :
    checkChannelList channels = none := by
  rw [centersIncrease_iff] at hinc
  rw [checkChannelList, if_neg (Nat.not_lt.mpr hlen), if_pos hinc]

theorem centersIncrease_of_checkChannelList (h : checkChannelList channels = none) : CentersIncrease channels := by
  by_contra hinc
  rw [checkChannelList_of_not_increasing (two_le_length_of_checkChannelList h) hinc] at h
  cases h

end

section
variable {f : NumFormat} {p : DecConfig}

/-- Checks 1 and 2 come first. -/
theorem checkDcfg_of_checkChannelList {ca : Cause} (h : checkChannelList p.channels = some ca) :
    checkDcfg f p = some ca := by simp [checkDcfg, h]

/-- Past checks 1 and 2, checks 3 and 4 decide. -/
theorem checkDcfg_of_checkChannelList_none (h : checkChannelList p.channels = none) :
    checkDcfg f p =
      if p.channels.any (outOfRange f p) then some .range
      else if hasEqualNeighbours (p.channels.map (channelBin f p)) then some .overlap else none := by
  simp [checkDcfg, h]

/-- What the checks leave, in both instantiations of NUM (`checkDcfg_none_iff` is about binary64). -/
theorem checks_of_checkDcfg_none (h : checkDcfg f p = none) :
    CentersIncrease p.channels ∧ (∀ ch ∈ p.channels, outOfRange f p ch = false) ∧
      hasEqualNeighbours (p.channels.map (channelBin f p)) = false := by
  cases hlist : checkChannelList p.channels with
  | some ca => rw [checkDcfg_of_checkChannelList hlist] at h; cases h
  | none =>
    rw [checkDcfg_of_checkChannelList_none hlist] at h
    split at h
    · cases h
    next hrange =>
      split at h
      · cases h
      next hdiffer =>
        exact ⟨centersIncrease_of_checkChannelList hlist, by simpa using hrange, by simpa using hdiffer⟩

end

/-- Settles O14: the four conditions are the four checks, and a DCFG past them is a fresh decoder. -/
theorem dcfgStartsAFreshDecoder : Obligations.DcfgStartsAFreshDecoder :=
  fun p raw _ hf hw hlen hinc hrange hdiffer =>
    dcfgCommand_fresh raw hf hw ((checkDcfg_none_iff p).mpr ⟨hlen, hinc, hrange, hdiffer⟩)

/-- Settles O15: in each clause the earlier checks pass, and the one that fails gives the cause of the rejection. -/
theorem dcfgChecksDecideInOrder : Obligations.DcfgChecksDecideInOrder := by
  intro p raw s hf hw
  refine ⟨fun hlen => ?_, fun hlen hinc => ?_, fun hlen hinc hrange => ?_, fun hlen hinc hrange hdiffer => ?_⟩ <;>
    refine dcfgCommand_rejected raw hf hw ?_
  · exact checkDcfg_of_checkChannelList (checkChannelList_of_length_lt hlen)
  · exact checkDcfg_of_checkChannelList (checkChannelList_of_not_increasing hlen hinc)
  · rw [allInRange_iff, Bool.not_eq_false] at hrange
    rw [checkDcfg_of_checkChannelList_none (checkChannelList_of_increasing hlen hinc)]
    exact if_pos hrange
  · rw [allInRange_iff] at hrange
    rw [binsDiffer_iff, Bool.not_eq_false] at hdiffer
    rw [checkDcfg_of_checkChannelList_none (checkChannelList_of_increasing hlen hinc), build_numFormat, hrange, hdiffer]
    rfl

/-! ## The bins past the checks, in exact arithmetic -/

section
variable {p : DecConfig} {sr : Rat} (hsr : p.sampleRate = .fin sr) (hpos : 0 < sr)
include hsr hpos

theorem channelBin_exact_mono (hb : 1 ≤ p.transformBlockSize) {a b : Channel} (hafin : ∃ x, a.center = .fin x)
    (hbfin : ∃ y, b.center = .fin y) (h : NUM.lt a.center b.center = true) :
    channelBin .exact p a ≤ channelBin .exact p b := by
  obtain ⟨x, hx⟩ := hafin
  obtain ⟨y, hy⟩ := hbfin
  rw [hx, hy, lt_fin, decide_eq_true_eq] at h
  rw [channelBin, channelBin, hx, hy, hsr]
  exact binIsMonotone .exact x y sr _ hpos hb h.le

/-- The bins of neighbours do not decrease (40_binmap.md R69 (a)), and check 4 rules out that they are equal. -/
theorem pairwise_channelBin_exact_lt (hb : 1 ≤ p.transformBlockSize)
    (hfin : ∀ ch ∈ p.channels, ∃ x, ch.center = .fin x) (hinc : CentersIncrease p.channels)
    (hdiffer : hasEqualNeighbours (p.channels.map (channelBin .exact p)) = false) :
    (p.channels.map (channelBin .exact p)).Pairwise (· < ·) := by
  rw [← List.isChain_iff_pairwise, List.isChain_iff_getElem]
  intro i hi
  have hne := (hasEqualNeighbours_iff _).mp hdiffer i _ _ (List.getElem?_eq_getElem (Nat.lt_of_succ_lt hi))
    (List.getElem?_eq_getElem hi)
  refine lt_of_le_of_ne ?_ hne
  rw [List.length_map] at hi
  have hi' : i < p.channels.length := Nat.lt_of_succ_lt hi
  rw [List.getElem_map, List.getElem_map]
  exact channelBin_exact_mono hsr hpos hb (hfin _ (List.getElem_mem hi')) (hfin _ (List.getElem_mem hi))
    (hinc i _ _ (List.getElem?_eq_getElem hi') (List.getElem?_eq_getElem hi))

theorem channelBin_mem_frame_exact {ch : Channel} {x : Rat} (hx : ch.center = .fin x)
    (hrange : outOfRange .exact p ch = false) :
    0 ≤ channelBin .exact p ch ∧ channelBin .exact p ch < (frameLength p : Int) := by
  simp only [outOfRange, Bool.or_eq_false_iff, decide_eq_false_iff_not, ge_iff_le, not_le] at hrange
  obtain ⟨⟨hlow, -⟩, hbin⟩ := hrange
  rw [hx, lt_fin, decide_eq_false_iff_not, not_lt] at hlow
  exact ⟨by rw [channelBin, hx, hsr]; exact bin_nonneg hlow hpos, hbin⟩

end

/-- Settles O16: increasing centers have bins that do not decrease, no two neighbours share one, and check 3 with centers
at or above 0 keeps each inside the frame. -/
theorem acceptedBinsAreDistinctAndInFrame : Obligations.AcceptedBinsAreDistinctAndInFrame := by
  intro p sr hsr hpos hb hfin hchecks
  obtain ⟨hinc, hrange, hdiffer⟩ := checks_of_checkDcfg_none hchecks
  refine ⟨pairwise_channelBin_exact_lt hsr hpos hb hfin hinc hdiffer, fun ch hch => ?_⟩
  obtain ⟨x, hx⟩ := hfin ch hch
  exact channelBin_mem_frame_exact hsr hpos hx (hrange ch hch)

/-! ## Attachment -/

/-- Of all effects on DEC only a construction attaches. -/
theorem DecEffect.dcfg_of_attached {i : Instr} {d d' : Dec} {ev : List Event} (h : DecEffect i d ev d')
    (hd : d.attached = false) (hd' : d'.attached = true) : ∃ p raw, i = .dcfg p raw ∧ d'.cfg = p ∧ d'.rawEn = raw := by
  cases h with
  | construct => exact ⟨_, _, rfl, rfl, rfl⟩
  | detach => cases hd'
  | keep | rise | stayLow | accumulate | fall => cases hd.symm.trans hd'

/-- Settles O18: read off the effect on DEC. -/
theorem onlyDcfgAttaches : Obligations.OnlyDcfgAttaches := by
  intro i s t h hs ht
  obtain ⟨_, -, -, hdec, -⟩ := exec_effect h
  exact hdec.dcfg_of_attached hs ht

theorem exec_detach_notConfigured {s : State} (hv : s.dec.valid = false) :
    exec .detach s = .next (s.respond (rejection .notConfigured none)) := if_pos hv

theorem exec_detach_configured {s : State} (hv : s.dec.valid = true) :
    exec .detach s =
      .next (State.respond ⟨⟨.ok, none, none⟩, [], []⟩ { s with dec := { s.dec with attached := false } }) :=
  if_neg (by simp [hv])

/-- Settles O17: the decoder DETACH leaves is still valid and no longer attached, which is what FRAME tests next. -/
theorem detachStopsDecoding : Obligations.DetachStopsDecoding := fun _ =>
  ⟨exec_detach_notConfigured, fun hv =>
    ⟨_, rfl, exec_detach_configured hv, exec_detach_configured hv, fun _ hfr =>
      frameCommand_detached (List.all_eq_true.mpr hfr) hv rfl⟩⟩

end Sys2Proof.Machine
end

section
/-! PROOFS. DEC: frames (41_decoder.md R74 to R83). An admitted FRAME takes the case of the clock level before and of the
frame's level (`exec_frame_admitted`); the statements say what each case writes and emits. -/

namespace Sys2Proof.Machine

open Sys2Proof.Claims

/-! ## One admitted frame -/

/-- Clock and reference stand first, in the magnitudes of a frame and in the running sums. -/
theorem exists_eq_cons_cons_of_getElem? {l : List NUM} {a b : NUM} (ha : l[0]? = some a)
    (hb : l[1]? = some b) : ∃ rest, l = a :: b :: rest := by
  match l, ha, hb with
  | _ :: _ :: rest, rfl, rfl => exact ⟨rest, rfl⟩

/-- An admitted FRAME takes the case of R77. -/
theorem exec_frame_admitted {s : State} {fr : Frame} {m : List NUM} {level : Bool} (hadm : FrameAdmitted s fr)
    (hreads : FrameReads s fr m) (hlevel : Level s m level) :
    exec (.frame fr) s = frameCase Config.build fr m s (edgeOf s.dec.clockLevel level) := by
  obtain ⟨hv, ha, hlen, hfin⟩ := hadm
  obtain ⟨clock, ref, hclock, href, rfl⟩ := hlevel
  obtain ⟨rest, rfl⟩ := exists_eq_cons_cons_of_getElem? hclock href
  exact frameCommand_admitted (List.all_eq_true.mpr hfin) hv ha hlen ((frameReads_iff ..).mp hreads)

/-- With the clock low, held low writes what stands there (R83). -/
theorem lowered_of_low {d : Dec} (hlow : d.clockLevel = false) : d.lowered = d := by
  rw [Dec.lowered, ← hlow]

section
variable {s : State} {fr : Frame} {m : List NUM} (hadm : FrameAdmitted s fr) (hreads : FrameReads s fr m)
include hadm hreads

theorem exec_frame_rising (hlow : s.dec.clockLevel = false) (hlevel : Level s m true) :
    exec (.frame fr) s = complete (rawOf s fr) [] { s with dec := s.dec.risingEdge } := by
  rw [exec_frame_admitted hadm hreads hlevel, hlow]; rfl

theorem exec_frame_heldLow (hlow : s.dec.clockLevel = false) (hlevel : Level s m false) :
    exec (.frame fr) s = complete (rawOf s fr) [] s := by
  rw [exec_frame_admitted hadm hreads hlevel, hlow, edgeOf, frameCase, lowered_of_low hlow]; rfl

theorem exec_frame_falling (hhigh : s.dec.clockLevel = true) (hlevel : Level s m false) {events : List Event}
    (hevents : s.dec.fallingEvents .binary64 = some events) :
    exec (.frame fr) s = complete (rawOf s fr ++ events) [] { s with dec := s.dec.lowered } := by
  rw [exec_frame_admitted hadm hreads hlevel, hhigh, edgeOf, frameCase, build_numFormat, hevents]; rfl

/-- Held high, with one running sum per channel, goes on exactly when every new sum is finite (R82; U6). -/
theorem exec_frame_heldHigh (hhigh : s.dec.clockLevel = true) (hlevel : Level s m true)
    (havg : s.dec.avg.length = s.dec.cfg.channels.length) :
    exec (.frame fr) s =
      if (s.dec.sums .binary64 m).all NUM.isFinite then
        complete (rawOf s fr) [] { s with dec := s.dec.heldHigh .binary64 m }
      else .refused .resultNotFinite := by
  rw [exec_frame_admitted hadm hreads hlevel, hhigh, edgeOf, frameCase, if_pos havg]; rfl

end

/-- Settles O20: the level of the frame and the low clock select the rising edge, which reads no magnitude. -/
theorem risingEdgeZeroesTheSums : Obligations.RisingEdgeZeroesTheSums :=
  fun _ _ _ hadm hreads hlow hlevel => exec_frame_rising hadm hreads hlow hlevel

/-- Settles O22: held low writes the low level the clock already has. -/
theorem heldLowChangesNothing : Obligations.HeldLowChangesNothing :=
  fun _ _ _ hadm hreads hlow hlevel => exec_frame_heldLow hadm hreads hlow hlevel

/-! ## The falling edge -/

theorem fallingEvents_truncated {f : NumFormat} {d : Dec} (h : d.collected = 0) : d.fallingEvents f = some [] :=
  if_pos h

theorem fallingEvents_collected {f : NumFormat} {d : Dec} {clock ref : NUM} {data : List NUM} (h : d.collected ≠ 0)
    (havg : d.avg = clock :: ref :: data) (hlen : d.avg.length = d.cfg.channels.length) :
    d.fallingEvents f = some [symbolEvent f (NUM.ofNat d.collected) clock ref data] := by
  rw [Dec.fallingEvents, if_neg h, if_pos hlen, havg]

section
variable {f : NumFormat} {n clock ref : NUM} {data : List NUM}

theorem symbolEvent_degenerate (h : NUM.eqv (NUM.div f clock n) (NUM.div f ref n) = true) :
    symbolEvent f n clock ref data = .undecodable := if_pos h

theorem symbolEvent_calibrated (h : NUM.eqv (NUM.div f clock n) (NUM.div f ref n) = false) :
    symbolEvent f n clock ref data = .symbol (data.map
      (dataBit f n (NUM.div f ref n) (NUM.sub f (NUM.div f clock n) (NUM.div f ref n)))) :=
  if_neg (by simp [h])

end

/-- Settles O23: with nothing collected the falling edge has no event of its own. -/
theorem truncatedWindowEmitsNothing : Obligations.TruncatedWindowEmitsNothing := by
  intro s fr m hadm hreads hhigh hlevel hcollected
  rw [exec_frame_falling hadm hreads hhigh hlevel (fallingEvents_truncated hcollected), List.append_nil]
  rfl

/-- Settles O24: the sums after the first two are the data channels'. -/
theorem fallingEdgeEmitsTheThresholdedSymbol : Obligations.FallingEdgeEmitsTheThresholdedSymbol := by
  rintro s fr m clock ref n high low hadm hreads hhigh hlevel hcollected hlen hclock href rfl rfl rfl hne
  obtain ⟨data, havg⟩ := exists_eq_cons_cons_of_getElem? hclock href
  have hevents := fallingEvents_collected (f := .binary64) hcollected havg hlen
  rw [symbolEvent_calibrated hne] at hevents
  refine ⟨_, exec_frame_falling hadm hreads hhigh hlevel hevents, ?_, fun k a ha => ?_⟩
  · rw [List.length_map, ← hlen, havg]; rfl
  · rw [havg, List.getElem?_cons_succ, List.getElem?_cons_succ] at ha
    rw [List.getElem?_map, ha]; rfl

/-- Settles O25: the symbol event of equal means is UNDECODABLE. -/
theorem degenerateCalibrationIsUndecodable : Obligations.DegenerateCalibrationIsUndecodable := by
  rintro s fr m clock ref n hadm hreads hhigh hlevel hcollected hlen hclock href rfl heq
  obtain ⟨data, havg⟩ := exists_eq_cons_cons_of_getElem? hclock href
  have hevents := fallingEvents_collected (f := .binary64) hcollected havg hlen
  rw [symbolEvent_degenerate heq] at hevents
  exact exec_frame_falling hadm hreads hhigh hlevel hevents

/-! ## Held high -/

/-- With one magnitude per running sum each new sum is one addition of its channel's magnitude. -/
theorem sums_getElem? {f : NumFormat} {d : Dec} {m : List NUM} (hlen : m.length = d.avg.length) (c : Nat) :
    (d.sums f m)[c]? = d.avg[c]?.map fun a => NUM.add f a (m.getD c (.fin 0)) := by
  rw [Dec.sums, List.getElem?_zipWith, List.getD_eq_getElem?_getD]
  obtain h | h := lt_or_ge c d.avg.length
  · rw [List.getElem?_eq_getElem h, List.getElem?_eq_getElem (hlen ▸ h)]; rfl
  · rw [List.getElem?_eq_none h]; rfl

theorem sums_length {f : NumFormat} {d : Dec} {m : List NUM} (hlen : m.length = d.avg.length) :
    (d.sums f m).length = d.avg.length := by
  rw [Dec.sums, List.length_zipWith, hlen, min_self]

theorem sums_all_isFinite_iff {f : NumFormat} {d : Dec} {m : List NUM} (hlen : m.length = d.avg.length) :
    (d.sums f m).all NUM.isFinite = true ↔
      ∀ (c : Nat) (a : NUM), d.avg[c]? = some a → (NUM.add f a (m.getD c (.fin 0))).isFinite = true := by
  rw [List.all_eq_true]
  constructor
  · intro h c a ha
    exact h _ (List.mem_of_getElem? (by rw [sums_getElem? hlen, ha]; rfl))
  · intro h x hx
    obtain ⟨c, hc⟩ := List.mem_iff_getElem?.mp hx
    rw [sums_getElem? hlen] at hc
    obtain ⟨a, ha, rfl⟩ := Option.map_eq_some_iff.mp hc
    exact h c a ha

/-- Settles O21: every new sum is finite, so the FRAME goes on. -/
theorem heldHighAccumulatesEveryChannel : Obligations.HeldHighAccumulatesEveryChannel := by
  intro s fr m hadm hreads hhigh hlevel havg hfin
  have hlen : m.length = s.dec.avg.length := hreads.1.trans havg.symm
  have hmag : ∀ (c : Nat) (a : NUM), s.dec.avg[c]? = some a → m[c]? = some (m.getD c (.fin 0)) := fun c a ha => by
    have hc := (List.getElem?_eq_some_iff.mp ha).1
    rw [List.getD_eq_getElem?_getD, List.getElem?_eq_getElem (hlen ▸ hc)]; rfl
  refine ⟨s.dec.sums .binary64 m, ?_, (sums_length hlen).trans havg, fun c a x ha hx => ?_⟩
  · rw [exec_frame_heldHigh hadm hreads hhigh hlevel havg,
      if_pos ((sums_all_isFinite_iff hlen).mpr fun c a ha => hfin c a _ ha (hmag c a ha))]
    rfl
  · rw [sums_getElem? hlen, ha, List.getD_eq_getElem?_getD, hx]; rfl

/-! ## RAW_FRAME -/

theorem symbolEvent_ne_rawFrame {f : NumFormat} {n clock ref : NUM} {data : List NUM} (x : Frame) :
    symbolEvent f n clock ref data ≠ .rawFrame x := by
  unfold symbolEvent
  dsimp only
  split <;> simp

/-- What a falling edge adds is no RAW_FRAME. -/
theorem rawFrame_notMem_of_fallingEvents {f : NumFormat} {d : Dec} {events : List Event}
    (h : d.fallingEvents f = some events) (x : Frame) : .rawFrame x ∉ events := by
  unfold Dec.fallingEvents at h
  split at h
  · cases h; simp
  · split at h
    · split at h
      · cases h; exact fun hx => symbolEvent_ne_rawFrame x (List.mem_singleton.mp hx).symm
      · cases h
    · cases h

section
variable {s t : State} {fr : Frame}

/-- Each case of an admitted FRAME emits RAW_FRAME as R75 says, then events that are none. -/
theorem frameCase_events {c : Config} {m : List NUM} {e : Edge} (h : frameCase c fr m s e = .next t) :
    ∃ r ev, t.transcript = s.transcript ++ [r] ∧ r.events = rawOf s fr ++ ev ∧ ∀ x, .rawFrame x ∉ ev := by
  obtain ⟨-, rfl⟩ | ⟨-, rfl⟩ | ⟨-, -, -, rfl⟩ | ⟨-, ev, hev, rfl⟩ := frameCase_next h
  · exact ⟨_, [], rfl, (List.append_nil _).symm, by simp⟩
  · exact ⟨_, [], rfl, (List.append_nil _).symm, by simp⟩
  · exact ⟨_, [], rfl, (List.append_nil _).symm, by simp⟩
  · exact ⟨_, ev, rfl, rfl, rawFrame_notMem_of_fallingEvents hev⟩

/-- A FRAME that answers either was admitted or emitted nothing. -/
theorem exec_frame_events (h : exec (.frame fr) s = .next t) :
    ∃ r, t.transcript = s.transcript ++ [r] ∧
      ((FrameAdmitted s fr ∧ ∃ ev, r.events = rawOf s fr ++ ev ∧ ∀ x, .rawFrame x ∉ ev) ∨
        (¬ FrameAdmitted s fr ∧ r.events = [])) := by
  obtain ⟨hf, ⟨hv, rfl⟩ | ⟨-, ha, rfl⟩ | ⟨-, -, hl, rfl⟩ | ⟨hv, ha, hl, _, _, _, -, hcase⟩⟩ := frameCommand_next h
  · exact ⟨_, rfl, .inr ⟨fun ⟨hvalid, _⟩ => by simp [hv] at hvalid, rfl⟩⟩
  · exact ⟨_, rfl, .inr ⟨fun ⟨_, hattached, _⟩ => by simp [ha] at hattached, rfl⟩⟩
  · exact ⟨_, rfl, .inr ⟨fun ⟨_, _, hlen, _⟩ => hl hlen, rfl⟩⟩
  · obtain ⟨r, ev, hr, hevents, hnot⟩ := frameCase_events hcase
    exact ⟨r, hr, .inl ⟨⟨hv, ha, hl, List.all_eq_true.mp hf⟩, ev, hevents, hnot⟩⟩

end

/-- Settles O27: the events of an admitted FRAME are those of R75 and then none of their kind. -/
theorem rawFrameComesFirstAndOnce : Obligations.RawFrameComesFirstAndOnce := by
  intro s t fr h
  obtain ⟨r, hr, ⟨hadm, ev, hev, hnot⟩ | ⟨hnadm, hev⟩⟩ := exec_frame_events h
  · refine ⟨r, hr, fun _ hraw => ⟨ev, by rw [hev, rawOf, if_pos hraw]; rfl, hnot⟩, fun hoff x => ?_⟩
    have hraw : ¬ s.dec.rawEn = true := by simpa using hoff.resolve_left (not_not.mpr hadm)
    rw [hev, rawOf, if_neg hraw]
    exact hnot x
  · exact ⟨r, hr, fun hadm => absurd hadm hnadm, fun _ x => by rw [hev]; exact List.not_mem_nil⟩

end Sys2Proof.Machine
end

section
/-! PROOFS. A run of held-high frames (41_decoder.md R82; 93_implementation_defined.md U6): it goes on exactly while the
running sums are finite (`prefixSumsFinite_cons_iff`), one step for each frame. -/

namespace Sys2Proof.Machine

open Sys2Proof.Claims

/-! ## The operands and the sums -/

/-- A FRAME operand that is admitted and held high when the clock is high, with its magnitudes. -/
def HeldHighOperand (s : State) (fr : Frame) (m : List NUM) : Prop :=
  FrameAdmitted s fr ∧ FrameReads s fr m ∧ Level s m true

theorem HeldHighOperand.length_eq {s : State} {fr : Frame} {m : List NUM} (h : HeldHighOperand s fr m)
    (havg : s.dec.avg.length = s.dec.cfg.channels.length) : m.length = s.dec.avg.length := by
  obtain ⟨-, ⟨hlen, -⟩, -⟩ := h
  exact hlen.trans havg.symm

/-- The state a held-high FRAME leaves when `rest` of the host's moves follow it. -/
def State.afterHeldHigh (s : State) (fr : Frame) (m : List NUM) (rest : List HostMove) : State :=
  State.respond ⟨⟨.ok, none, none⟩, rawOf s fr, []⟩ { s with dec := s.dec.heldHigh .binary64 m, incoming := rest }

/-- Every channel's left-to-right sum over each of the first `n` non-empty prefixes of the frames is finite (U6). -/
def PrefixSumsFinite (avg : List NUM) (n : Nat) (ms : List (List NUM)) : Prop :=
  ∀ (c k : Nat) (a : NUM), avg[c]? = some a → 1 ≤ k → k ≤ n → (sumLeft (ms.take k) c a).isFinite = true

theorem prefixSumsFinite_zero (avg : List NUM) (ms : List (List NUM)) : PrefixSumsFinite avg 0 ms :=
  fun _ _ _ _ h1 h0 => absurd (h1.trans h0) (by decide)

theorem prefixSumsFinite_cons_iff {d : Dec} {n : Nat} {m : List NUM} {ms : List (List NUM)}
    (hlen : m.length = d.avg.length) :
    PrefixSumsFinite d.avg (n + 1) (m :: ms) ↔
      (d.sums .binary64 m).all NUM.isFinite = true ∧ PrefixSumsFinite (d.sums .binary64 m) n ms := by
  rw [sums_all_isFinite_iff hlen]
  constructor
  · refine fun h => ⟨fun c a ha => h c 1 a ha le_rfl (by omega), fun c k a' ha' _ hk => ?_⟩
    rw [sums_getElem? hlen] at ha'
    obtain ⟨a, ha, rfl⟩ := Option.map_eq_some_iff.mp ha'
    exact h c (k + 1) a ha (by omega) (by omega)
  · rintro ⟨hhead, htail⟩ c k a ha h1 hk
    match k, h1 with
    | 1, _ => exact hhead c a ha
    | k + 2, _ => exact htail c (k + 1) _ (by rw [sums_getElem? hlen, ha]; rfl) (by omega) (by omega)

/-! ## One step -/

section
variable {s : State} {fr : Frame} {m : List NUM} {rest : List HostMove}
  (hin : s.incoming = .command (encode (.frame fr)) :: rest) (hhigh : s.dec.clockLevel = true)
  (havg : s.dec.avg.length = s.dec.cfg.channels.length) (hop : HeldHighOperand s fr m)
include hin hhigh havg hop

theorem step_heldHigh :
    step s = if (s.dec.sums .binary64 m).all NUM.isFinite then .next (s.afterHeldHigh fr m rest)
      else .refused .resultNotFinite := by
  obtain ⟨hadm, hreads, hlevel⟩ := hop
  rw [step_command hin (decode_encode _)]
  exact exec_frame_heldHigh (s := { s with incoming := rest }) hadm hreads hhigh hlevel havg

theorem run_succ_of_sums_finite (hfin : (s.dec.sums .binary64 m).all NUM.isFinite = true) (n : Nat) :
    Sys2Proof.core.run (n + 1) s = Sys2Proof.core.run n (s.afterHeldHigh fr m rest) := by
  have hstep := step_heldHigh hin hhigh havg hop
  rw [if_pos hfin] at hstep
  simp [Host.Core.run, Sys2Proof.core, hstep]

theorem run_succ_of_sums_not_finite (hfin : ¬ (s.dec.sums .binary64 m).all NUM.isFinite = true) (n : Nat) :
    Sys2Proof.core.run (n + 1) s = .refused .resultNotFinite := by
  have hstep := step_heldHigh hin hhigh havg hop
  rw [if_neg hfin] at hstep
  simp [Host.Core.run, Sys2Proof.core, hstep]

end

/-! ## The run -/

section
variable {s : State} {frames : List Frame} {ms : List (List NUM)} {rest : List HostMove}
  (hin : s.incoming = frames.map (fun fr => .command (encode (.frame fr))) ++ rest)
  (hhigh : s.dec.clockLevel = true) (havg : s.dec.avg.length = s.dec.cfg.channels.length)
  (hops : List.Forall₂ (HeldHighOperand s) frames ms)
include hin hhigh havg hops

theorem run_heldHigh_of_finite (hfin : PrefixSumsFinite s.dec.avg frames.length ms) :
    ∃ t : State, Sys2Proof.core.run frames.length s = .next t ∧ t.incoming = rest ∧ t.enc = s.enc ∧
      t.dec.clockLevel = true ∧ t.dec.collected = s.dec.collected + frames.length ∧
      t.dec.avg.length = s.dec.cfg.channels.length ∧
      ∀ (c : Nat) (a : NUM), s.dec.avg[c]? = some a → t.dec.avg[c]? = some (sumLeft ms c a) := by
  induction frames generalizing s ms with
  | nil =>
    cases hops
    exact ⟨s, rfl, hin, rfl, hhigh, rfl, havg, fun _ _ ha => ha⟩
  | cons fr frames ih =>
    obtain _ | ⟨hop, hops⟩ := hops
    next m ms =>
      have hlen := hop.length_eq havg
      obtain ⟨hhead, htail⟩ := (prefixSumsFinite_cons_iff hlen).mp hfin
      obtain ⟨t, hrun, hrest, henc, hlevel, hcollected, hsums, hget⟩ :=
        ih (s := s.afterHeldHigh fr m _) rfl rfl ((sums_length hlen).trans havg) hops htail
      refine ⟨t, (run_succ_of_sums_finite hin hhigh havg hop hhead _).trans hrun, hrest, henc, hlevel, ?_, hsums,
        fun c a ha => hget c _ ((sums_getElem? hlen c).trans (by rw [ha]; rfl))⟩
      rw [hcollected, List.length_cons]
      exact Nat.add_right_comm ..

theorem run_heldHigh_of_not_finite (hfin : ¬ PrefixSumsFinite s.dec.avg frames.length ms) :
    Sys2Proof.core.run frames.length s = .refused .resultNotFinite := by
  induction frames generalizing s ms with
  | nil => exact absurd (prefixSumsFinite_zero _ _) hfin
  | cons fr frames ih =>
    obtain _ | ⟨hop, hops⟩ := hops
    next m ms =>
      have hlen := hop.length_eq havg
      by_cases hhead : (s.dec.sums .binary64 m).all NUM.isFinite = true
      · have htail := fun h => hfin ((prefixSumsFinite_cons_iff hlen).mpr ⟨hhead, h⟩)
        exact (run_succ_of_sums_finite hin hhigh havg hop hhead _).trans
          (ih (s := s.afterHeldHigh fr m _) rfl rfl ((sums_length hlen).trans havg) hops htail)
      · exact run_succ_of_sums_not_finite hin hhigh havg hop hhead _

end

/-- Settles O30: by induction on the frames, since a held-high FRAME leaves a state in which the later frames are again
admitted and held high; the run stops at the first sum that is not finite. -/
theorem heldHighRunSumsLeftToRight : Obligations.HeldHighRunSumsLeftToRight := by
  intro s frames ms rest hin hhigh havg hops
  refine ⟨run_heldHigh_of_finite hin hhigh havg hops, ?_⟩
  rintro ⟨c, k, a, ha, h1, hk, hnot⟩
  exact run_heldHigh_of_not_finite hin hhigh havg hops fun hfin => by simp [hfin c k a ha h1 hk] at hnot

end Sys2Proof.Machine
end

section
/-! PROOFS. The symbol of a window in exact arithmetic (41_decoder.md R79, R81): a bit is the nearer of the two levels,
and a window of held-high frames separates them. -/

namespace Sys2Proof.Machine

/-! ## The nearer level -/

/-- `x` is past the middle from `low` to `high`, whichever is the greater, exactly when it is nearer to `high`: both say
that `high - low` and `(x - low) + (x - high)` have one sign. -/
theorem half_lt_div_iff_abs_sub_lt {x high low : Rat} (hne : high ≠ low) :
    1 / 2 < (x - low) / (high - low) ↔ |x - high| < |x - low| := by
  have hd : high - low ≠ 0 := sub_ne_zero.mpr hne
  have hhalf : (x - low) / (high - low) - 1 / 2 =
      ((x - low) + (x - high)) * (high - low) / (2 * (high - low) ^ 2) := by field_simp; ring
  have hsq : (x - low) ^ 2 - (x - high) ^ 2 = ((x - low) + (x - high)) * (high - low) := by ring
  rw [← sq_lt_sq, ← sub_pos, hhalf, div_pos_iff_of_pos_right (by positivity), ← hsq, sub_pos]

theorem dataBit_exact {n high low sum : Rat} (hn : 0 < n) (hne : high ≠ low) :
    dataBit .exact (.fin n) (.fin low) (NUM.sub .exact (.fin high) (.fin low)) (.fin sum) =
      decide (1 / 2 < (sum / n - low) / (high - low)) := by
  simp [dataBit, div_fin _ _ _ hn.ne', div_fin _ _ _ (sub_ne_zero.mpr hne)]

/-- Settles O32: the threshold 0.5 is the middle between the two levels. -/
theorem bitIsTheNearerLevelInExactArithmetic : Obligations.BitIsTheNearerLevelInExactArithmetic := by
  intro n high low sum hn hne
  rw [dataBit_exact hn hne, decide_eq_true_eq]
  exact half_lt_div_iff_abs_sub_lt hne

/-! ## The calibration of a window -/

/-- In exact arithmetic a running sum is the sum. -/
theorem foldl_add_exact {α : Type} (g : α → Rat) (l : List α) (a : Rat) :
    l.foldl (fun sum m => NUM.add .exact sum (.fin (g m))) (.fin a) = .fin (a + (l.map g).sum) := by
  induction l generalizing a with
  | nil => simp
  | cons x l ih => rw [List.foldl_cons, add_fin, round_exact, ih, List.map_cons, List.sum_cons, add_assoc]

theorem clockLevelOf_exact (clock ref thr : Rat) :
    clockLevelOf .exact (.fin clock) (.fin ref) (.fin thr) = true ↔ thr < clock - ref := by simp [clockLevelOf]

theorem symbolEvent_exact_ne_undecodable {n clock ref : Rat} (data : List NUM) (hn : n ≠ 0) (hne : clock ≠ ref) :
    symbolEvent .exact (.fin n) (.fin clock) (.fin ref) data ≠ .undecodable := by
  have hmeans : NUM.eqv (NUM.div .exact (.fin clock) (.fin n)) (NUM.div .exact (.fin ref) (.fin n)) = false := by
    simp [div_fin _ _ _ hn, div_left_inj' hn, hne]
  rw [symbolEvent_calibrated hmeans]
  exact Event.noConfusion

/-- Settles O33: with a threshold at or above 0 the clock is above the reference in every frame, so its sum is the
greater. -/
theorem noDegenerateWindowInExactArithmetic : Obligations.NoDegenerateWindowInExactArithmetic := by
  intro thr window data hthr hwindow hlevel
  have hlt : ∀ m ∈ window, m.2 < m.1 := fun m hm =>
    sub_pos.mp (hthr.trans_lt ((clockLevelOf_exact ..).mp (hlevel m hm)))
  have hsum : (window.map Prod.snd).sum < (window.map Prod.fst).sum := List.sum_lt_sum_of_ne_nil hwindow _ _ hlt
  rw [foldl_add_exact, foldl_add_exact, zero_add, zero_add, ofNat_eq]
  exact symbolEvent_exact_ne_undecodable data (by simpa using hwindow) hsum.ne'

end Sys2Proof.Machine
end

section
/-! PROOFS. ENC: construction and scheduling (42_encoder.md R85 to R95): what ECFG and ENCODE answer from every state,
the timeline an ENCODE writes on each channel, and its order in exact arithmetic. -/

namespace Sys2Proof.Machine

open Sys2Proof.Claims

/-! ## ECFG -/

/-- Settles O34: in each clause the earlier check passes; the one that fails gives the cause of the rejection, and an
ECFG past both is a fresh encoder. -/
theorem ecfgChecksThenStartsAFreshEncoder : Obligations.EcfgChecksThenStartsAFreshEncoder := fun _ _ hf hw =>
  ⟨fun hlen => ecfgCommand_rejected hf hw (checkChannelList_of_length_lt hlen),
    fun hlen hinc => ecfgCommand_rejected hf hw (checkChannelList_of_not_increasing hlen hinc),
    fun hlen hinc => ecfgCommand_fresh hf hw (checkChannelList_of_increasing hlen hinc)⟩

/-! ## What ENCODE answers -/

/-- Settles O36: the length test comes before the scheduling, and it fails. -/
theorem wrongSymbolLengthRejectsBeforeScheduling : Obligations.WrongSymbolLengthRejectsBeforeScheduling := by
  intro s symbols t0 hv hf hfit
  rw [← symbolLengthWrong_eq_false_iff, Bool.not_eq_false] at hfit
  exact encodeCommand_wrongLength hf rfl hv hfit

/-- A fitting ENCODE on a configured encoder hands over its calls and sets the two times. -/
theorem exec_encode_scheduled {s : State} {symbols : List Symbol} {t0 : NUM} (hv : s.enc.valid = true)
    (hf : t0.isValue .binary64 = true) (h2 : 2 ≤ s.enc.cfg.channels.length) (hfit : SymbolsFit s.enc.cfg symbols) :
    exec (.encode symbols t0) s = .next
      { s with
        enc := { s.enc with t0 := some t0, stop := some (stopTime .binary64 s.enc.cfg t0 symbols.length) }
        transcript := s.transcript ++ [okReply [] (encodeCalls .binary64 s.enc.cfg symbols t0)] } :=
  encodeCommand_scheduled hf rfl hv ((symbolLengthWrong_eq_false_iff ..).mpr hfit) (tlWriteAll_encodeCalls h2 hfit)

/-- Settles O38: with no symbol there are no slot calls, and the stop time is the start time. -/
theorem emptyEncodeStopsAtItsStart : Obligations.EmptyEncodeStopsAtItsStart := fun _ _ hv hf h2 =>
  exec_encode_scheduled hv hf h2 (List.forall_mem_nil _)

/-! ## The number of setpoints -/

section
variable {f : NumFormat} {p : EncConfig} {t0 : NUM}

theorem length_dataCalls (t : NUM) (k : Nat) (sym : Symbol) : (dataCalls p t k sym).length = sym.length := by
  induction sym generalizing k with
  | nil => rfl
  | cons b rest ih => rw [dataCalls, List.length_cons, ih, List.length_cons]

/-- A slot writes one setpoint on each data channel and two on the clock channel. -/
theorem length_slotCalls (i : Nat) (sym : Symbol) : (slotCalls f p t0 i sym).length = sym.length + 2 := by
  rw [slotCalls, List.length_append, length_dataCalls]; rfl

theorem length_slotsCalls (i : Nat) {symbols : List Symbol} (hfit : SymbolsFit p symbols) :
    (slotsCalls f p t0 i symbols).length = symbols.length * p.channels.length := by
  induction symbols generalizing i with
  | nil => simp [slotsCalls]
  | cons sym rest ih =>
    obtain ⟨hsym, hrest⟩ := List.forall_mem_cons.mp hfit
    rw [slotsCalls, List.length_append, length_slotCalls, hsym, ih _ hrest, List.length_cons]
    ring

end

/-- Settles O39: the reference setpoint, `C` setpoints in each slot, and `C` in the shutdown. -/
theorem setpointCount : Obligations.SetpointCount := by
  intro f p symbols t0 hfit
  rw [encodeCalls, List.length_cons, List.length_append, length_slotsCalls 0 hfit, shutdownCalls, List.length_map,
    List.length_range]
  ring

/-! ## The timeline of each channel -/

section
variable (f : NumFormat) (p : EncConfig) (t0 : NUM) (symbols : List Symbol)

theorem channelTimeline_slotsCalls (i ch : Nat) :
    channelTimeline (slotsCalls f p t0 i symbols) ch =
      (symbols.zipIdx i).flatMap fun q => channelTimeline (slotCalls f p t0 q.2 q.1) ch := by
  induction symbols generalizing i with
  | nil => rfl
  | cons sym rest ih => rw [slotsCalls, channelTimeline_append, ih, List.zipIdx_cons, List.flatMap_cons]

/-- A channel has the reference setpoint if it is the reference, then what each slot writes on it, then the shutdown if
it exists. -/
theorem channelTimeline_encodeCalls (ch : Nat) :
    channelTimeline (encodeCalls f p symbols t0) ch =
      (if 1 = ch then [(t0, p.encodeGainLow)] else []) ++
        ((symbols.zipIdx.flatMap fun q => channelTimeline (slotCalls f p t0 q.2 q.1) ch) ++
          if ch < p.channels.length then [(stopTime f p t0 symbols.length, .zero)] else []) := by
  rw [encodeCalls, channelTimeline_cons, channelTimeline_append, channelTimeline_slotsCalls,
    channelTimeline_shutdownCalls, REF]

/-- The clock channel (42_encoder.md R91). -/
theorem channelTimeline_encodeCalls_clock (hch : 0 < p.channels.length) :
    channelTimeline (encodeCalls f p symbols t0) 0 =
      ((List.range symbols.length).flatMap fun i =>
        [(riseTime f p t0 i, p.encodeGainHigh), (fallTime f p t0 i, p.encodeGainLow)]) ++
          [(stopTime f p t0 symbols.length, .zero)] := by
  rw [channelTimeline_encodeCalls, if_neg one_ne_zero, if_pos hch, List.nil_append, List.range_eq_range',
    ← List.zipIdx_map_snd, List.flatMap_map]
  simp only [channelTimeline_slotCalls_clock]

/-- The reference channel (42_encoder.md R92). -/
theorem channelTimeline_encodeCalls_ref (hch : 1 < p.channels.length) :
    channelTimeline (encodeCalls f p symbols t0) 1 =
      [(t0, p.encodeGainLow), (stopTime f p t0 symbols.length, .zero)] := by
  rw [channelTimeline_encodeCalls, ← channelTimeline_slotsCalls, channelTimeline_slotsCalls_ref, if_pos rfl, if_pos hch]
  rfl

variable {symbols}

/-- The data channels (42_encoder.md R93): a fitting symbol has a bit for each. -/
theorem channelTimeline_encodeCalls_data (hfit : SymbolsFit p symbols) {k : Nat} (hk : k + 2 < p.channels.length) :
    channelTimeline (encodeCalls f p symbols t0) (k + 2) =
      (symbols.zipIdx.map fun q => (slotStart f p t0 q.2, bitGain p (q.1.getD k false))) ++
        [(stopTime f p t0 symbols.length, .zero)] := by
  rw [channelTimeline_encodeCalls, if_neg (by omega), if_pos hk, List.nil_append, List.map_eq_flatMap]
  congr 1
  refine List.flatMap_congr fun q hq => ?_
  have hlen := hfit q.1 (List.fst_mem_of_mem_zipIdx hq)
  have hbit : q.1[k]? = some (q.1.getD k false) := by
    rw [List.getElem?_eq_getElem (by omega), List.getD_eq_getElem]
  rw [channelTimeline_slotCalls_data, hbit]
  rfl

end

/-- Settles O37: the calls name channels that exist, so all of them are handed over, and each channel's part of them is
the one of the rules. -/
theorem encodeSchedulesEveryChannel : Obligations.EncodeSchedulesEveryChannel := fun _ _ _ hv hf h2 hfit =>
  ⟨_, exec_encode_scheduled hv hf h2 hfit, fun _ hq => channel_lt_of_mem_encodeCalls h2 hfit hq,
    channelTimeline_encodeCalls_clock _ _ _ _ (by omega), channelTimeline_encodeCalls_ref _ _ _ _ h2,
    fun _ hk => channelTimeline_encodeCalls_data _ _ _ hfit hk⟩

/-! ## The order of the timeline in exact arithmetic -/

/-- One setpoint of a channel is earlier than another. -/
def Earlier (a b : NUM × NUM) : Prop := NUM.lt a.1 b.1 = true

/-- A setpoint lies in a half-open interval of time. -/
def TimeIn (lo hi : Rat) (q : NUM × NUM) : Prop := ∃ x, q.1 = .fin x ∧ lo ≤ x ∧ x < hi

theorem TimeIn.earlier {lo hi lo' hi' : Rat} {a b : NUM × NUM} (ha : TimeIn lo hi a) (hb : TimeIn lo' hi' b)
    (h : hi ≤ lo') : Earlier a b := by
  obtain ⟨x, hx, -, hxhi⟩ := ha
  obtain ⟨y, hy, hloy, -⟩ := hb
  rw [Earlier, hx, hy, lt_fin]
  exact decide_eq_true (by linarith)

section
variable {p : EncConfig} {dur pause t0 : Rat} (hdur : p.symbolDuration = .fin dur) (hpause : p.symbolPause = .fin pause)
  (hP : 0 < dur + pause)
include hdur hpause hP

/-- The pulse of a slot lies inside the slot. -/
theorem slot_chain (i : Nat) :
    NUM.lt (slotStart .exact p (.fin t0) i) (riseTime .exact p (.fin t0) i) = true ∧
      NUM.lt (riseTime .exact p (.fin t0) i) (fallTime .exact p (.fin t0) i) = true ∧
      NUM.lt (fallTime .exact p (.fin t0) i) (slotStart .exact p (.fin t0) (i + 1)) = true := by
  rw [riseTime_exact hdur hpause, fallTime_exact hdur hpause, slotStart_exact hdur hpause, slotStart_exact hdur hpause]
  simp only [lt_fin, decide_eq_true_eq, Nat.cast_add, Nat.cast_one]
  exact ⟨by linarith, by linarith, by linarith⟩

/-- On each channel the setpoints of a slot are in order: only the clock channel has more than one. -/
theorem pairwise_channelTimeline_slotCalls (i : Nat) (sym : Symbol) (ch : Nat) :
    (channelTimeline (slotCalls .exact p (.fin t0) i sym) ch).Pairwise Earlier := by
  match ch with
  | 0 =>
    rw [channelTimeline_slotCalls_clock]
    exact List.pairwise_pair.mpr (slot_chain hdur hpause hP i).2.1
  | 1 => rw [channelTimeline_slotCalls_ref]; exact .nil
  | k + 2 => rw [channelTimeline_slotCalls_data]; cases sym[k]? <;> simp

/-- The setpoints of a slot lie in the slot. -/
theorem timeIn_of_mem_slotCalls {i : Nat} {sym : Symbol} {ch : Nat} {q : NUM × NUM}
    (hq : q ∈ channelTimeline (slotCalls .exact p (.fin t0) i sym) ch) :
    TimeIn (t0 + i * (dur + pause)) (t0 + (i + 1) * (dur + pause)) q := by
  match ch with
  | 0 =>
    rw [channelTimeline_slotCalls_clock, riseTime_exact hdur hpause, fallTime_exact hdur hpause] at hq
    obtain rfl | rfl : q = _ ∨ q = _ := by simpa using hq
    all_goals exact ⟨_, rfl, by linarith, by linarith⟩
  | 1 => rw [channelTimeline_slotCalls_ref] at hq; cases hq
  | k + 2 =>
    rw [channelTimeline_slotCalls_data, slotStart_exact hdur hpause] at hq
    obtain ⟨_, -, rfl⟩ := List.mem_map.mp hq
    exact ⟨_, rfl, le_rfl, by linarith⟩

/-- The setpoints of all slots are in order on each channel, since a later slot starts no sooner than an earlier ends. -/
theorem pairwise_channelTimeline_slots (symbols : List Symbol) (ch : Nat) :
    (symbols.zipIdx.flatMap fun q => channelTimeline (slotCalls .exact p (.fin t0) q.2 q.1) ch).Pairwise Earlier := by
  have hindex : symbols.zipIdx.Pairwise fun a b => a.2 < b.2 :=
    List.pairwise_map.mp (List.zipIdx_map_snd 0 symbols ▸ List.pairwise_lt_range' 1)
  refine List.pairwise_flatMap.mpr
    ⟨fun _ _ => pairwise_channelTimeline_slotCalls hdur hpause hP _ _ ch, hindex.imp fun hlt _ ha _ hb => ?_⟩
  exact (timeIn_of_mem_slotCalls hdur hpause hP ha).earlier (timeIn_of_mem_slotCalls hdur hpause hP hb)
    (slot_end_le_slot hP t0 hlt)

/-- With a symbol, every channel is in order: the reference is low from `t0` to the stop time; on the others the
shutdown follows the slots. -/
theorem pairwise_channelTimeline_encodeCalls {symbols : List Symbol} (hfit : SymbolsFit p symbols) (hne : symbols ≠ [])
    (ch : Nat) : (channelTimeline (encodeCalls .exact p symbols (.fin t0)) ch).Pairwise Earlier := by
  have hstop : t0 + dur + pause ≤ t0 + symbols.length * (dur + pause) := by
    simpa [add_assoc] using slot_end_le_slot hP t0 (i := 0) (List.length_pos_iff.mpr hne)
  by_cases hch : 1 = ch
  · subst hch
    obtain ⟨sym, hsym⟩ := List.exists_mem_of_ne_nil _ hne
    have hlen := hfit sym hsym
    rw [channelTimeline_encodeCalls_ref _ _ _ _ (by omega), stopTime_exact hdur hpause]
    exact List.pairwise_pair.mpr (decide_eq_true (by linarith))
  · rw [channelTimeline_encodeCalls, if_neg hch, List.nil_append, stopTime_exact hdur hpause, List.pairwise_append]
    refine ⟨pairwise_channelTimeline_slots hdur hpause hP symbols ch, by split <;> simp, fun a ha b hb => ?_⟩
    obtain ⟨q, hq, ha⟩ := List.mem_flatMap.mp ha
    obtain rfl : b = (.fin (t0 + symbols.length * (dur + pause)), .zero) := by
      split at hb
      · exact List.mem_singleton.mp hb
      · cases hb
    have hlast : q.2 + 1 ≤ symbols.length := List.snd_lt_of_mem_zipIdx hq
    exact (timeIn_of_mem_slotCalls hdur hpause hP ha).earlier ⟨_, rfl, le_rfl, lt_add_one _⟩
      (slot_end_le_slot hP t0 hlast)

end

/-- Settles O40: a pulse lies inside its slot, so the slots are in order and the shutdown follows them. -/
theorem timelineIsStrictlyOrderedInExactArithmetic : Obligations.TimelineIsStrictlyOrderedInExactArithmetic :=
  fun _ _ _ _ _ hdur hpause hP hfit =>
    ⟨slot_chain hdur hpause hP, pairwise_channelTimeline_encodeCalls hdur hpause hP hfit⟩

end Sys2Proof.Machine
end

section
/-! PROOFS. The exceptions (60_exceptions.md R97, R100 to R104, R107): which opcodes are reserved, which commands are
turned away in which states, that a command turned away only answers, and the order of what a command sends. -/

namespace Sys2Proof.Machine

open Sys2Proof.Claims

/-! ## Reserved opcodes -/

/-- The opcode map takes no byte of the ranges of 30_encoding.md R62: each format's byte lies outside them. -/
theorem formatOf_eq_none_of_reserved {b : Byte}
    (h : (1 ≤ b.toNat ∧ b.toNat ≤ 0x0F) ∨ (0x13 ≤ b.toNat ∧ b.toNat ≤ 0x1F) ∨
      (0x22 ≤ b.toNat ∧ b.toNat ≤ 0x2F) ∨ 0x30 ≤ b.toNat) : formatOf b = none := by
  refine Option.eq_none_iff_forall_ne_some.mpr fun f hf => ?_
  obtain rfl := (formatOf_eq_some_iff ..).mp hf
  cases f <;> revert h <;> decide

theorem decode_reserved {cmd : Command} (h : formatOf cmd.opcode = none) : decode cmd = .reserved cmd.opcode := by
  simp [decode, h]

theorem step_reserved {s : State} {cmd : Command} {rest : List HostMove} {b : Byte}
    (h : s.incoming = .command cmd :: rest) (hb : decode cmd = .reserved b) :
    step s = .next ({ s with incoming := rest }.respond (rejection .illegalCmd none)) := by
  simp [step, h, hb, illegalCommand]

/-- Settles O3: the opcode has no format, so the decoder answers before it reads the payload. -/
theorem reservedOpcodesAnswerIllegalCmd : Obligations.ReservedOpcodesAnswerIllegalCmd :=
  fun _ _ _ _ hin hres => step_reserved hin (decode_reserved (formatOf_eq_none_of_reserved hres))

/-! ## Commands turned away -/

/-- Which command is turned away in which state, with which status and cause (60_exceptions.md R97, R100, R102),
the tests being taken in the order of R103. -/
inductive Rejects : Instr → State → Status → Option Cause → Prop where
  | dcfg {s : State} {p : DecConfig} {raw : Bool} {ca : Cause}
      (checks : checkDcfg Config.build.numFormat p = some ca) : Rejects (.dcfg p raw) s .configError (some ca)
  | ecfg {s : State} {p : EncConfig} {ca : Cause} (checks : checkChannelList p.channels = some ca) :
      Rejects (.ecfg p) s .configError (some ca)
  | frameNotConfigured {s : State} {fr : Frame} (invalid : s.dec.valid = false) :
      Rejects (.frame fr) s .notConfigured none
  | frameDetached {s : State} {fr : Frame} (valid : s.dec.valid = true) (detached : s.dec.attached = false) :
      Rejects (.frame fr) s .detached none
  | frameLength {s : State} {fr : Frame} (valid : s.dec.valid = true) (attached : s.dec.attached = true)
      (length : fr.length ≠ frameLength s.dec.cfg) : Rejects (.frame fr) s .frameFault (some .length)
  | detachNotConfigured {s : State} (invalid : s.dec.valid = false) : Rejects .detach s .notConfigured none
  | encodeNotConfigured {s : State} {symbols : List Symbol} {t0 : NUM} (invalid : s.enc.valid = false) :
      Rejects (.encode symbols t0) s .notConfigured none
  | encodeLength {s : State} {symbols : List Symbol} {t0 : NUM} (valid : s.enc.valid = true)
      (length : symbolLengthWrong s.enc.cfg symbols = true) :
      Rejects (.encode symbols t0) s .configError (some .symbolLength)

/-- A command that ended was turned away and only answered, or ended with status OK. -/
def RejectedOrOk (i : Instr) (s t : State) : Prop :=
  (∃ st ca, Rejects i s st ca ∧ t = s.respond (rejection st ca)) ∨
    ∃ r, t.transcript = s.transcript ++ [r] ∧ t.incoming = s.incoming ∧ r.response.status = .ok

theorem frame_rejectedOrOk {fr : Frame} {s t : State} (h : exec (.frame fr) s = .next t) :
    RejectedOrOk (.frame fr) s t := by
  obtain ⟨-, ⟨hv, rfl⟩ | ⟨hv, ha, rfl⟩ | ⟨hv, ha, hl, rfl⟩ | ⟨-, -, -, _, _, _, -, hcase⟩⟩ := frameCommand_next h
  · exact .inl ⟨_, _, .frameNotConfigured hv, rfl⟩
  · exact .inl ⟨_, _, .frameDetached hv ha, rfl⟩
  · exact .inl ⟨_, _, .frameLength hv ha hl, rfl⟩
  · right
    obtain ⟨-, rfl⟩ | ⟨-, rfl⟩ | ⟨-, -, -, rfl⟩ | ⟨-, _, -, rfl⟩ := frameCase_next hcase <;> exact ⟨_, rfl, rfl, rfl⟩

/-- Every command that answers a next state is one of `Rejects`, or ended OK. -/
theorem exec_rejectedOrOk {i : Instr} {s t : State} (h : exec i s = .next t) : RejectedOrOk i s t := by
  cases i with
  | bin freq sr b =>
    obtain rfl := binCommand_next h
    exact .inr ⟨_, rfl, rfl, rfl⟩
  | dcfg p raw =>
    obtain ⟨-, -, ⟨_, hc, rfl⟩ | ⟨-, rfl⟩⟩ := dcfgCommand_next h
    · exact .inl ⟨_, _, .dcfg hc, rfl⟩
    · exact .inr ⟨_, rfl, rfl, rfl⟩
  | frame fr => exact frame_rejectedOrOk h
  | detach =>
    obtain ⟨hv, he⟩ | ⟨-, he⟩ := execDetach_cases s <;> cases he.symm.trans h
    · exact .inl ⟨_, _, .detachNotConfigured hv, rfl⟩
    · exact .inr ⟨_, rfl, rfl, rfl⟩
  | ecfg p =>
    obtain ⟨-, -, ⟨_, hc, rfl⟩ | ⟨-, rfl⟩⟩ := ecfgCommand_next h
    · exact .inl ⟨_, _, .ecfg hc, rfl⟩
    · exact .inr ⟨_, rfl, rfl, rfl⟩
  | encode symbols t0 =>
    obtain ⟨-, ⟨hv, rfl⟩ | ⟨hv, hl, rfl⟩ | ⟨-, -, _, -, rfl⟩⟩ := encodeCommand_next h
    · exact .inl ⟨_, _, .encodeNotConfigured hv, rfl⟩
    · exact .inl ⟨_, _, .encodeLength hv hl, rfl⟩
    · exact .inr ⟨_, rfl, rfl, rfl⟩

/-- Settles O45: a command turned away leaves the state it found, with its answer and nothing else. -/
theorem rejectionsChangeNothing : Obligations.RejectionsChangeNothing := by
  intro i s t h
  obtain ⟨st, ca, -, rfl⟩ | ⟨r, hr, hin, hok⟩ := exec_rejectedOrOk h
  · exact ⟨rejection st ca, rfl, rfl, fun _ => ⟨rfl, rfl, rfl, rfl, rfl⟩⟩
  · exact ⟨r, hr, hin, fun herr => absurd hok herr⟩

/-- NOT_CONFIGURED is the status of three rejections, each of a unit that is not valid (R100). -/
theorem Rejects.notConfigured_source {i : Instr} {s : State} {ca : Option Cause}
    (h : Rejects i s .notConfigured ca) :
    (i.unit = .dec ∧ s.dec.valid = false ∧ ∀ p raw, i ≠ .dcfg p raw) ∨
      (i.unit = .enc ∧ s.enc.valid = false ∧ ∀ p, i ≠ .ecfg p) := by
  cases h with
  | frameNotConfigured invalid | detachNotConfigured invalid =>
    exact .inl ⟨rfl, invalid, fun _ _ heq => Instr.noConfusion heq⟩
  | encodeNotConfigured invalid => exact .inr ⟨rfl, invalid, fun _ heq => Instr.noConfusion heq⟩

/-- A command whose reply says NOT_CONFIGURED was turned away with that status. -/
theorem rejects_of_notConfigured {i : Instr} {s t : State} {r : Reply} (h : exec i s = .next t)
    (hr : t.transcript = s.transcript ++ [r]) (hst : r.response.status = .notConfigured) :
    ∃ ca, Rejects i s .notConfigured ca := by
  obtain ⟨st, ca, hrej, rfl⟩ | ⟨r', hr', -, hok⟩ := exec_rejectedOrOk h
  · obtain rfl : rejection st ca = r := by simpa using hr
    obtain rfl : st = .notConfigured := hst
    exact ⟨ca, hrej⟩
  · obtain rfl : r = r' := by simpa using hr.symm.trans hr'
    cases hst.symm.trans hok

/-- Settles O35: the three commands test first that their unit is valid, and no other rejection has that test's status. -/
theorem notConfiguredExactlyWithoutAnInstance : Obligations.NotConfiguredExactlyWithoutAnInstance := by
  refine ⟨fun _ _ hv hfr => frameCommand_notConfigured (List.all_eq_true.mpr hfr) hv,
    fun _ hv => exec_detach_notConfigured hv, fun _ _ _ hv hf => encodeCommand_notConfigured hf rfl hv, ?_⟩
  rintro i s t h ⟨r, hr, hst⟩
  obtain ⟨ca, hrej⟩ := rejects_of_notConfigured h hr hst
  exact hrej.notConfigured_source

/-- Settles O19: one clause for each admission test that fails after those before it passed. -/
theorem frameAdmissionTestsInOrder : Obligations.FrameAdmissionTestsInOrder := fun _ _ hfr =>
  have hf := List.all_eq_true.mpr hfr
  ⟨frameCommand_notConfigured hf, frameCommand_detached hf, frameCommand_wrongLength hf⟩

/-! ## The order of what a command sends -/

/-- One more reply on the transcript is its outputs after all those before. -/
theorem outputs_of_transcript {s t : State} {r : Reply} (h : t.transcript = s.transcript ++ [r]) :
    t.outputs = s.outputs ++ r.outputs := by
  simp [State.outputs, h]

theorem EncEffect.frame_setpoints {fr : Frame} {e e' : Enc} {sp : List Setpoint} (h : EncEffect (.frame fr) e sp e') :
    sp = [] := by
  cases h with
  | keep => rfl

/-- Settles O55: a reply is sent as its events, its setpoints, then its response; a FRAME has no setpoint, and another
command no event. -/
theorem eventsPrecedeTheResponse : Obligations.EventsPrecedeTheResponse := by
  intro i s t h
  obtain ⟨r, hr, -, hdec, henc⟩ := exec_effect h
  refine ⟨r.events.map .event ++ r.setpoints.map .setpoint, r.response, ?_, by simp, ?_, fun hnot e he => ?_⟩
  · rw [outputs_of_transcript hr, Reply.outputs]
    simp only [List.append_assoc]
  · rintro ⟨fr, rfl⟩ o ho
    rw [henc.frame_setpoints, List.map_nil, List.append_nil] at ho
    obtain ⟨e, -, rfl⟩ := List.mem_map.mp ho
    exact ⟨e, rfl⟩
  · have hmem : e ∈ r.events := by simpa using he
    obtain ⟨fr, hfr⟩ := hdec.events_source (List.ne_nil_of_mem hmem)
    exact hnot fr hfr

end Sys2Proof.Machine
end

section
/-! PROOFS. The launch premises (70_reset_and_hazards.md R120): the decoder states that `Fresh(DEC)` names. -/

namespace Sys2Proof.Machine

open Sys2Proof.Claims

/-- A DCFG answered OK had a well-formed payload past the four checks, and DEC is fresh: the other way DCFG ends is the
rejection CONFIG_ERROR. -/
theorem fresh_of_dcfg_ok {p : DecConfig} {raw : Bool} {s t : State} {r : Reply}
    (h : exec (.dcfg p raw) s = .next t) (hr : t.transcript = s.transcript ++ [r]) (hok : r.response.status = .ok) :
    t.dec.Fresh Config.build := by
  obtain ⟨hf, hw, ⟨ca, -, rfl⟩ | ⟨hc, rfl⟩⟩ := dcfgCommand_next h
  · obtain rfl : rejection .configError (some ca) = r := by simpa using hr
    cases hok
  · exact ⟨p, raw, (Bool.and_eq_true _ _).mpr ⟨hf, hw⟩, hc, rfl⟩

/-- A fresh DEC is what the DCFG of its own payload leaves, from every state, with an answer OK. -/
theorem Dec.Fresh.exists_dcfg_ok {d : Dec} (h : d.Fresh Config.build) (s : State) :
    ∃ p raw t, exec (.dcfg p raw) s = .next t ∧ t.transcript = s.transcript ++ [okReply [] []] ∧ t.dec = d := by
  obtain ⟨p, raw, hwf, hc, rfl⟩ := h
  obtain ⟨hf, hw⟩ := (Bool.and_eq_true _ _).mp hwf
  exact ⟨p, raw, _, dcfgCommand_fresh raw hf hw hc, rfl, rfl⟩

/-- Settles O54: of the two ways DCFG ends, OK leaves a fresh DEC; and each fresh DEC is left so from reset. -/
theorem freshIsAfterASuccessfulDcfg : Obligations.FreshIsAfterASuccessfulDcfg := by
  refine fun d => ⟨fun hd => ?_, ?_⟩
  · obtain ⟨p, raw, t, hexec, hr, hdec⟩ := hd.exists_dcfg_ok State.reset
    exact ⟨p, raw, State.reset, t, _, hexec, hr, rfl, hdec⟩
  · rintro ⟨p, raw, s, t, r, hexec, hr, hok, rfl⟩
    exact fresh_of_dcfg_ok hexec hr hok

end Sys2Proof.Machine
end

section
/-! PROOFS. A held-high FRAME whose running sum leaves NUM's range (93_implementation_defined.md U6): one channel's
overflow is enough to stop it. -/

namespace Sys2Proof.Machine

open Sys2Proof.Claims

/-- One channel whose new sum is not finite makes the test of the new sums fail. -/
theorem not_sums_all_isFinite {f : NumFormat} {d : Dec} {m : List NUM} {c : Nat} {a x : NUM}
    (hlen : m.length = d.avg.length) (ha : d.avg[c]? = some a) (hx : m[c]? = some x)
    (hover : (NUM.add f a x).isFinite = false) : ¬ (d.sums f m).all NUM.isFinite = true := by
  intro hall
  have hfin := (sums_all_isFinite_iff hlen).mp hall c a ha
  rw [List.getD_eq_getElem?_getD, hx, Option.getD_some, hover] at hfin
  cases hfin

/-- Settles O26: a held-high FRAME goes on exactly when every new sum is finite, and the sum of channel `c` is not. -/
theorem runningSumOverflowIsRefused : Obligations.RunningSumOverflowIsRefused := by
  intro s fr m c a x hadm hreads hhigh hlevel havg ha hx hover
  have hlen : m.length = s.dec.avg.length := hreads.1.trans havg.symm
  rw [exec_frame_heldHigh hadm hreads hhigh hlevel havg, if_neg (not_sums_all_isFinite hlen ha hx hover)]

end Sys2Proof.Machine
end
